-- ==== Sys2Proof/Word.lean ====
section
/-! DEFINITION. The widths of the spec: bytes, 16-bit words, 12-bit addresses, nibbles and register
numbers (spec/00_scope.md R11, R12; spec/30_encoding.md R81). Every value is unsigned (R12). -/

namespace Sys2Proof

/-- An 8-bit value: a V register, a timer, a memory byte, the immediate kk (R31, R41, R42, R49, R81). -/
abbrev Byte := BitVec 8

/-- A 16-bit value: an opcode, pc, I, a return-stack slot (R80, R35, R36, R40). -/
abbrev Word := BitVec 16

/-- The 12-bit address field nnn of an opcode (R81). -/
abbrev Addr := BitVec 12

/-- A 4-bit field of an opcode: op, or the sprite height n (R81). -/
abbrev Nibble := BitVec 4

/-- The number of a general register, 0x0 to 0xF (R31). -/
abbrev Reg := Fin 16

/-- VF, the register that doubles as the flag (R32). -/
abbrev regVF : Reg := 15

end Sys2Proof
end

