-- ==== Sys2Proof/Config.lean ====
section
/-! DEFINITION. The block's parameters (spec/00_scope.md R11): the fixed sizes, what a run takes from outside
the block (`Config.Parameters`), and the one free value of the model, the byte on RAND_IN. The defaults of
the open parameters stand where a repair may mend them: FONT in Machine/Memory.lean (log 2), SHIFT_SOURCE
and KEYWAIT_PICK in Machine/Operands.lean (log 5, log 6). RESET_UNSPEC and FONT are arguments of
`State.construct` in Machine/Transactions.lean (log 1, log 2, log 3). -/

namespace Sys2Proof

/-- MEM_SIZE: memory has addresses 0x000 to 0xFFF (R11, R60). -/
abbrev Config.memSize : Nat := 4096

/-- PROGRAM_BASE: LOAD writes from here, and pc starts here (R11, R36, R254). -/
abbrev Config.programBase : Nat := 0x200

/-- The font takes the first 80 bytes, 16 glyphs of 5 bytes (FONT_BASE of R11; R50). -/
abbrev Config.fontSize : Nat := 80

/-- SHIFT_SOURCE: which register 8xy6 and 8xyE shift (R11, R134). -/
inductive Config.ShiftSource where
  | vx   -- shift Vx; the y field is ignored (the default, normative value)
  | vy   -- shift Vy; the result still goes to Vx
deriving DecidableEq, Repr

/-- RAND_IN: the byte the `k`-th executed Cxkk draws. A FREE VALUE (R139: 'Claims hold for every
draw'): it has no body, so no proof can learn a value of it (log 4). -/
opaque Config.randIn : Nat → Byte

/-- What the instructions take from outside the block's state: the OPEN parameters SHIFT_SOURCE and
KEYWAIT_PICK (R11: 'the model takes the parameter as an argument'), and the environment's input RAND_IN (R8).
`execUnder`, `stepUnder`, `cycle` and `Session.run` take them as an argument; `exec` and `step` are the
machine under the defaults (`defaultParameters`, Machine/Operands.lean). -/
structure Config.Parameters where
  /-- Which register 8xy6 and 8xyE shift (R134). -/
  shiftSource : Config.ShiftSource
  /-- Of the pressed keys, given as the lowest and the others in ascending order, the one Fx0A reports
  (R193). -/
  keywaitPick : Reg → List Reg → Reg
  /-- The byte on RAND_IN at the `k`-th draw (R139). -/
  randIn : Nat → Byte

/-- KEYWAIT_PICK is a function from a nonempty key set to one of its members (R193; D15). -/
def Config.Parameters.Legal (p : Config.Parameters) : Prop :=
  ∀ (k : Reg) (ks : List Reg), p.keywaitPick k ks ∈ k :: ks

end Sys2Proof
end

