-- ==== Sys2Proof/Syntax.lean ====
section
/-! DEFINITION. The instructions: one constructor for each of the 34 rows of spec/opcode_table.json
(spec/30_encoding.md R91, R96), each with the fields its pattern names (R81). -/

namespace Sys2Proof

/-- A decoded instruction: "a tagged variant with its fields" (R87). Each docstring gives the opcode
pattern, the mnemonic of R96 and the rule of its meaning. -/
inductive Instr where
  /-- `00E0`, `CLS` (R170). -/
  | cls
  /-- `00EE`, `RET` (R101). -/
  | ret
  /-- `1nnn`, `JP nnn` (R100). -/
  | jp (nnn : Addr)
  /-- `2nnn`, `CALL nnn` (R102). -/
  | call (nnn : Addr)
  /-- `3xkk`, `SE Vx, kk` (R103). -/
  | seImm (x : Reg) (kk : Byte)
  /-- `4xkk`, `SNE Vx, kk` (R104). -/
  | sneImm (x : Reg) (kk : Byte)
  /-- `5xy0`, `SE Vx, Vy` (R105). -/
  | seReg (x y : Reg)
  /-- `6xkk`, `LD Vx, kk` (R120). -/
  | ldImm (x : Reg) (kk : Byte)
  /-- `7xkk`, `ADD Vx, kk` (R121). -/
  | addImm (x : Reg) (kk : Byte)
  /-- `8xy0`, `LD Vx, Vy` (R122). -/
  | ldReg (x y : Reg)
  /-- `8xy1`, `OR Vx, Vy` (R123). -/
  | orReg (x y : Reg)
  /-- `8xy2`, `AND Vx, Vy` (R124). -/
  | andReg (x y : Reg)
  /-- `8xy3`, `XOR Vx, Vy` (R125). -/
  | xorReg (x y : Reg)
  /-- `8xy4`, `ADD Vx, Vy` (R126). -/
  | addReg (x y : Reg)
  /-- `8xy5`, `SUB Vx, Vy` (R127). -/
  | subReg (x y : Reg)
  /-- `8xy6`, `SHR Vx, Vy` (R128). -/
  | shr (x y : Reg)
  /-- `8xy7`, `SUBN Vx, Vy` (R129). -/
  | subnReg (x y : Reg)
  /-- `8xyE`, `SHL Vx, Vy` (R130). -/
  | shl (x y : Reg)
  /-- `9xy0`, `SNE Vx, Vy` (R106). -/
  | sneReg (x y : Reg)
  /-- `Annn`, `LD I, nnn` (R150). -/
  | ldI (nnn : Addr)
  /-- `Bnnn`, `JP V0, nnn` (R107). -/
  | jpV0 (nnn : Addr)
  /-- `Cxkk`, `RND Vx, kk` (R131). -/
  | rnd (x : Reg) (kk : Byte)
  /-- `Dxyn`, `DRW Vx, Vy, n` (R171). -/
  | drw (x y : Reg) (n : Nibble)
  /-- `Ex9E`, `SKP Vx` (R190). -/
  | skp (x : Reg)
  /-- `ExA1`, `SKNP Vx` (R191). -/
  | sknp (x : Reg)
  /-- `Fx07`, `LD Vx, DT` (R192). -/
  | ldVxDT (x : Reg)
  /-- `Fx0A`, `LD Vx, K` (R193). -/
  | ldVxK (x : Reg)
  /-- `Fx15`, `LD DT, Vx` (R195). -/
  | ldDTVx (x : Reg)
  /-- `Fx18`, `LD ST, Vx` (R196). -/
  | ldSTVx (x : Reg)
  /-- `Fx1E`, `ADD I, Vx` (R151). -/
  | addIVx (x : Reg)
  /-- `Fx29`, `LD F, Vx` (R152). -/
  | ldFVx (x : Reg)
  /-- `Fx33`, `LD B, Vx` (R153). -/
  | ldBVx (x : Reg)
  /-- `Fx55`, `LD [I], Vx` (R154). -/
  | storeRegs (x : Reg)
  /-- `Fx65`, `LD Vx, [I]` (R155). -/
  | loadRegs (x : Reg)
deriving DecidableEq, Repr

end Sys2Proof
end

