-- ==== Sys2Proof/WellFormed.lean ====
section
/-! DEFINITION. What is well formed: the field values an instruction can be written with
(spec/30_encoding.md R97), and the opcode words of the mask and match table (R91): a word is well
formed when it matches exactly one of the 34 rows (R92, R93). -/

namespace Sys2Proof

/-- Operand values as an assembler would read them, before any width is imposed (R96, R97). A field an
instruction's pattern does not name is 0. -/
structure FieldValues where
  x : Nat := 0
  y : Nat := 0
  n : Nat := 0
  kk : Nat := 0
  nnn : Nat := 0
deriving DecidableEq, Repr

/-- The ranges of R97: 'An out-of-range value cannot be encoded.' -/
def FieldValues.wellFormed (f : FieldValues) : Bool :=
  f.x < 16 && f.y < 16 && f.n < 16 && f.kk < 256 && f.nnn < 4096

/-- The operand values of an instruction. -/
def Instr.fieldValues : Instr → FieldValues
  | .cls => {}
  | .ret => {}
  | .jp nnn => { nnn := nnn.toNat }
  | .call nnn => { nnn := nnn.toNat }
  | .seImm x kk => { x := x, kk := kk.toNat }
  | .sneImm x kk => { x := x, kk := kk.toNat }
  | .seReg x y => { x := x, y := y }
  | .ldImm x kk => { x := x, kk := kk.toNat }
  | .addImm x kk => { x := x, kk := kk.toNat }
  | .ldReg x y => { x := x, y := y }
  | .orReg x y => { x := x, y := y }
  | .andReg x y => { x := x, y := y }
  | .xorReg x y => { x := x, y := y }
  | .addReg x y => { x := x, y := y }
  | .subReg x y => { x := x, y := y }
  | .shr x y => { x := x, y := y }
  | .subnReg x y => { x := x, y := y }
  | .shl x y => { x := x, y := y }
  | .sneReg x y => { x := x, y := y }
  | .ldI nnn => { nnn := nnn.toNat }
  | .jpV0 nnn => { nnn := nnn.toNat }
  | .rnd x kk => { x := x, kk := kk.toNat }
  | .drw x y n => { x := x, y := y, n := n.toNat }
  | .skp x => { x := x }
  | .sknp x => { x := x }
  | .ldVxDT x => { x := x }
  | .ldVxK x => { x := x }
  | .ldDTVx x => { x := x }
  | .ldSTVx x => { x := x }
  | .addIVx x => { x := x }
  | .ldFVx x => { x := x }
  | .ldBVx x => { x := x }
  | .storeRegs x => { x := x }
  | .loadRegs x => { x := x }

/-- An instruction is well formed when its operand values are in range. The operand types of `Instr`
already impose the ranges, so every term of `Instr` is (`Laws.wellFormed_instr`). -/
def Instr.wellFormed (i : Instr) : Bool := i.fieldValues.wellFormed

/-- A row of the opcode table (R91): a word `w` selects it when `w & mask = value`. -/
structure OpRow where
  mnemonic : String
  mask : Word
  value : Word
deriving DecidableEq, Repr

/-- `(w & mask) = match` (R91). -/
def OpRow.selects (r : OpRow) (w : Word) : Bool := w &&& r.mask == r.value

/-- The rows of op 0x0 to 0x7 (R91). -/
def opcodeRowsLow : List OpRow :=
  [ ⟨"CLS", 0xFFFF, 0x00E0⟩, ⟨"RET", 0xFFFF, 0x00EE⟩, ⟨"JP_nnn", 0xF000, 0x1000⟩,
    ⟨"CALL_nnn", 0xF000, 0x2000⟩, ⟨"SE_Vx__kk", 0xF000, 0x3000⟩, ⟨"SNE_Vx__kk", 0xF000, 0x4000⟩,
    ⟨"SE_Vx__Vy", 0xF00F, 0x5000⟩, ⟨"LD_Vx__kk", 0xF000, 0x6000⟩, ⟨"ADD_Vx__kk", 0xF000, 0x7000⟩ ]

/-- The rows of op 0x8 to 0xD (R91). -/
def opcodeRowsMid : List OpRow :=
  [ ⟨"LD_Vx__Vy", 0xF00F, 0x8000⟩, ⟨"OR_Vx__Vy", 0xF00F, 0x8001⟩, ⟨"AND_Vx__Vy", 0xF00F, 0x8002⟩,
    ⟨"XOR_Vx__Vy", 0xF00F, 0x8003⟩, ⟨"ADD_Vx__Vy", 0xF00F, 0x8004⟩, ⟨"SUB_Vx__Vy", 0xF00F, 0x8005⟩,
    ⟨"SHR_Vx__Vy", 0xF00F, 0x8006⟩, ⟨"SUBN_Vx__Vy", 0xF00F, 0x8007⟩, ⟨"SHL_Vx__Vy", 0xF00F, 0x800E⟩,
    ⟨"SNE_Vx__Vy", 0xF00F, 0x9000⟩, ⟨"LD_I__nnn", 0xF000, 0xA000⟩, ⟨"JP_V0__nnn", 0xF000, 0xB000⟩,
    ⟨"RND_Vx__kk", 0xF000, 0xC000⟩, ⟨"DRW_Vx__Vy__n", 0xF000, 0xD000⟩ ]

/-- The rows of op 0xE and 0xF (R91). -/
def opcodeRowsHigh : List OpRow :=
  [ ⟨"SKP_Vx", 0xF0FF, 0xE09E⟩, ⟨"SKNP_Vx", 0xF0FF, 0xE0A1⟩, ⟨"LD_Vx__DT", 0xF0FF, 0xF007⟩,
    ⟨"LD_Vx__K", 0xF0FF, 0xF00A⟩, ⟨"LD_DT__Vx", 0xF0FF, 0xF015⟩, ⟨"LD_ST__Vx", 0xF0FF, 0xF018⟩,
    ⟨"ADD_I__Vx", 0xF0FF, 0xF01E⟩, ⟨"LD_F__Vx", 0xF0FF, 0xF029⟩, ⟨"LD_B__Vx", 0xF0FF, 0xF033⟩,
    ⟨"LD__I___Vx", 0xF0FF, 0xF055⟩, ⟨"LD_Vx___I", 0xF0FF, 0xF065⟩ ]

/-- The 34 rows of R91, in the table's order. -/
def opcodeTable : List OpRow := opcodeRowsLow ++ opcodeRowsMid ++ opcodeRowsHigh

/-- The rows a word selects. R92: never more than one. -/
def matchingRows (w : Word) : List OpRow := opcodeTable.filter (·.selects w)

/-- A word is well formed when it selects exactly one row; every other word raises UNKNOWN_OPCODE
(R93). -/
def wordWellFormed (w : Word) : Bool := (matchingRows w).length == 1

/-- The row of an instruction's own pattern (R91). -/
def Instr.row : Instr → OpRow
  | .cls => ⟨"CLS", 0xFFFF, 0x00E0⟩
  | .ret => ⟨"RET", 0xFFFF, 0x00EE⟩
  | .jp _ => ⟨"JP_nnn", 0xF000, 0x1000⟩
  | .call _ => ⟨"CALL_nnn", 0xF000, 0x2000⟩
  | .seImm _ _ => ⟨"SE_Vx__kk", 0xF000, 0x3000⟩
  | .sneImm _ _ => ⟨"SNE_Vx__kk", 0xF000, 0x4000⟩
  | .seReg _ _ => ⟨"SE_Vx__Vy", 0xF00F, 0x5000⟩
  | .ldImm _ _ => ⟨"LD_Vx__kk", 0xF000, 0x6000⟩
  | .addImm _ _ => ⟨"ADD_Vx__kk", 0xF000, 0x7000⟩
  | .ldReg _ _ => ⟨"LD_Vx__Vy", 0xF00F, 0x8000⟩
  | .orReg _ _ => ⟨"OR_Vx__Vy", 0xF00F, 0x8001⟩
  | .andReg _ _ => ⟨"AND_Vx__Vy", 0xF00F, 0x8002⟩
  | .xorReg _ _ => ⟨"XOR_Vx__Vy", 0xF00F, 0x8003⟩
  | .addReg _ _ => ⟨"ADD_Vx__Vy", 0xF00F, 0x8004⟩
  | .subReg _ _ => ⟨"SUB_Vx__Vy", 0xF00F, 0x8005⟩
  | .shr _ _ => ⟨"SHR_Vx__Vy", 0xF00F, 0x8006⟩
  | .subnReg _ _ => ⟨"SUBN_Vx__Vy", 0xF00F, 0x8007⟩
  | .shl _ _ => ⟨"SHL_Vx__Vy", 0xF00F, 0x800E⟩
  | .sneReg _ _ => ⟨"SNE_Vx__Vy", 0xF00F, 0x9000⟩
  | .ldI _ => ⟨"LD_I__nnn", 0xF000, 0xA000⟩
  | .jpV0 _ => ⟨"JP_V0__nnn", 0xF000, 0xB000⟩
  | .rnd _ _ => ⟨"RND_Vx__kk", 0xF000, 0xC000⟩
  | .drw _ _ _ => ⟨"DRW_Vx__Vy__n", 0xF000, 0xD000⟩
  | .skp _ => ⟨"SKP_Vx", 0xF0FF, 0xE09E⟩
  | .sknp _ => ⟨"SKNP_Vx", 0xF0FF, 0xE0A1⟩
  | .ldVxDT _ => ⟨"LD_Vx__DT", 0xF0FF, 0xF007⟩
  | .ldVxK _ => ⟨"LD_Vx__K", 0xF0FF, 0xF00A⟩
  | .ldDTVx _ => ⟨"LD_DT__Vx", 0xF0FF, 0xF015⟩
  | .ldSTVx _ => ⟨"LD_ST__Vx", 0xF0FF, 0xF018⟩
  | .addIVx _ => ⟨"ADD_I__Vx", 0xF0FF, 0xF01E⟩
  | .ldFVx _ => ⟨"LD_F__Vx", 0xF0FF, 0xF029⟩
  | .ldBVx _ => ⟨"LD_B__Vx", 0xF0FF, 0xF033⟩
  | .storeRegs _ => ⟨"LD__I___Vx", 0xF0FF, 0xF055⟩
  | .loadRegs _ => ⟨"LD_Vx___I", 0xF0FF, 0xF065⟩

end Sys2Proof
end

