-- ==== Sys2Proof/Machine/State.lean ====
section
/-! DEFINITION. The block's state as one record (spec/10_state.md R30), the faults (spec/60_exceptions.md
R210, R212) and the state CONSTRUCT leaves (spec/70_reset_and_hazards.md R251). -/

namespace Sys2Proof.Machine

/-- Memory as the (address, byte) pairs that differ from the reset contents, addresses strictly rising
(`Memory.wf`, Machine/Memory.lean). -/
abbrev Memory := List Host.Cell

/-- The framebuffer: 32 rows of 64 pixels, `true` = on; row y, column x is `fb[y][x]` (R44, R13). -/
abbrev Framebuffer := Vector (Vector Bool 64) 32

/-- The names of the seven faults (R210). They are the spec's; their numbers are its decision D12. -/
inductive FaultCode where
  /-- 1: pc >= 4096 or pc + 1 >= 4096 at fetch; raised by every cycle (R82). -/
  | fetchOutOfBounds
  /-- 2: the fetched word matches no row of the table; raised by decode (R93). -/
  | unknownOpcode
  /-- 3: 2nnn with sp = 16 (R102). -/
  | stackOverflow
  /-- 4: 00EE with sp = 0 (R101). -/
  | stackUnderflow
  /-- 5: a data read address of 4096 or more; raised by Dxyn and Fx65 (R171, R155). -/
  | memReadOutOfBounds
  /-- 6: a data write address of 4096 or more; raised by Fx33 and Fx55 (R153, R154). -/
  | memWriteOutOfBounds
  /-- 7: Ex9E or ExA1 with Vx >= 16 (R190, R191). -/
  | keyIndexOutOfRange
deriving DecidableEq, Repr

/-- The fault record {code, opcode, pc} (R212): the opcode is absent for a fetch fault, and pc is the
address the cycle fetched from. -/
structure FaultRecord where
  code : FaultCode
  opcode : Option Word
  pc : Word
deriving DecidableEq, Repr

/-- Why a step stops with a fault. -/
inductive Fault where
  /-- The cycle raised one of the seven faults: the outcome 'Fault(code, opcode, pc)' of R9. Raised by
  the fetch, by the decoder and by RET, CALL, DRW, SKP, SKNP, LD B, LD [I] and LD Vx,[I] through
  `raise`. The state it leaves is `State.withFault`. Safe: it is the spec's own outcome. -/
  | raised (r : FaultRecord)
  /-- The block has already faulted: 'no step' (R85, R214). A stuck state, raised by `step` alone, with
  the record the block stopped on. Safe: it is the spec's own outcome. -/
  | stopped (r : FaultRecord)
  /-- RET or CALL with sp above 16, a value R39 calls unreachable: there is no such stack slot. A stuck
  state of the model (log 7). Safe: no run reaches it. -/
  | illegalStackPointer (sp : Byte)
deriving DecidableEq, Repr

/-- Why a step has no meaning. -/
inductive Refusal where
  /-- The instruction has no meaning in the model yet. Raised by `exec` alone, and by none of its arms
  now: every row of the table has its meaning. Safe. -/
  | notModelled (mnemonic : String)
deriving DecidableEq, Repr

/-- The state record (R30). The field names are the spec's. -/
structure State where
  /-- V0..VF (R31). -/
  V : Vector Byte 16
  /-- The address register (R35). -/
  I : Word
  /-- The address of the next instruction to fetch (R36). -/
  pc : Word
  /-- The number of occupied stack slots, 0..16 (R39). -/
  sp : Byte
  /-- The return stack (R40). -/
  stack : Vector Word 16
  /-- delay_timer (R41). -/
  DT : Byte
  /-- sound_timer (R42). -/
  ST : Byte
  /-- Memory (R49). -/
  mem : Memory
  /-- The framebuffer (R44). -/
  fb : Framebuffer
  /-- The key state, `true` = pressed (R45). -/
  keys : Vector Bool 16
  /-- The record of the fault the block has stopped on (R46). -/
  fault : Option FaultRecord
  /-- The model's own counter of RAND_IN draws: it numbers the bytes of the environment's input, which are
  free values, and is no state of the block (R47, R139; log 4). CONSTRUCT carries it on. -/
  draws : Nat
deriving DecidableEq, Repr

/-- The outcome of a cycle (R9): Next(s'), Fault(code, opcode, pc) or Refused. -/
abbrev Result := Host.Outcome State Fault Refusal

/-- Every pixel off (R44). -/
def Framebuffer.blank : Framebuffer := Vector.replicate 32 (Vector.replicate 64 false)

/-- The state right after CONSTRUCT, under the defaults of every open parameter (R251). The source states
pc, fb and the font's place; the zeros of V, I, stack, DT, ST, keys and memory from 0x050 are the
spec's decisions D1 to D6 (log 1, log 3). No address is listed in `mem`: memory reads as
`Memory.initialByte` says. -/
def State.reset : State where
  V := Vector.replicate 16 0
  I := 0
  pc := 0x200
  sp := 0
  stack := Vector.replicate 16 0
  DT := 0
  ST := 0
  mem := []
  fb := Framebuffer.blank
  keys := Vector.replicate 16 false
  fault := none
  draws := 0

end Sys2Proof.Machine
end

