-- ==== Sys2Proof/Machine/Memory.lean ====
section
/-! DEFINITION. Memory (spec/20_memory.md): the reset contents, reading and writing one byte, runs of
bytes in ascending order (R64, R156), the bounds check (R60, R62), and the canonical form. -/

namespace Sys2Proof.Machine

/-- FONT (R11): the 16 glyphs of 5 bytes, in digit order, of R50. The bytes are the default of an open
parameter (D7; log 2). -/
def fontBytes : List Byte :=
  [0xF0, 0x90, 0x90, 0x90, 0xF0] ++ [0x20, 0x60, 0x20, 0x20, 0x70] ++
  [0xF0, 0x10, 0xF0, 0x80, 0xF0] ++ [0xF0, 0x10, 0xF0, 0x10, 0xF0] ++
  [0x90, 0x90, 0xF0, 0x10, 0x10] ++ [0xF0, 0x80, 0xF0, 0x10, 0xF0] ++
  [0xF0, 0x80, 0xF0, 0x90, 0xF0] ++ [0xF0, 0x10, 0x20, 0x40, 0x40] ++
  [0xF0, 0x90, 0xF0, 0x90, 0xF0] ++ [0xF0, 0x90, 0xF0, 0x10, 0xF0] ++
  [0xF0, 0x90, 0xF0, 0x90, 0x90] ++ [0xE0, 0x90, 0xE0, 0x90, 0xE0] ++
  [0xF0, 0x80, 0x80, 0x80, 0xF0] ++ [0xE0, 0x90, 0x90, 0x90, 0xE0] ++
  [0xF0, 0x80, 0xF0, 0x80, 0xF0] ++ [0xF0, 0x80, 0xF0, 0x80, 0x80]

/-- What an address that `mem` does not list reads as: the reset contents of R49, the font at
0x000..0x04F and 0x00 above it (log 3). -/
def Memory.initialByte (a : Nat) : Byte := (fontBytes[a]?).getD 0

/-- `MemRead(a, 1)` (R13). It changes nothing (R66). The caller checks the bound (R62). -/
def Memory.read : Memory → Nat → Byte
  | [], a => Memory.initialByte a
  | (b, v) :: m, a => if b = a then v else Memory.read m a

/-- `m` without any entry for `a`. -/
def Memory.erase (m : Memory) (a : Nat) : Memory := m.filter (fun c => c.1 != a)

/-- `m` with an entry for `a` put before the first higher address. -/
def Memory.insert : Memory → Nat → Byte → Memory
  | [], a, v => [(a, v)]
  | (b, w) :: m, a, v => if a < b then (a, v) :: (b, w) :: m else (b, w) :: Memory.insert m a v

/-- `MemWrite(a, 1, v)` (R13), keeping the canonical form: a byte equal to the reset contents is not
listed. The caller checks the bound (R62). -/
def Memory.write (m : Memory) (a : Nat) (v : Byte) : Memory :=
  if v = Memory.initialByte a then Memory.erase m a else Memory.insert (Memory.erase m a) a v

/-- The writes of Fx33, Fx55 and LOAD: the bytes at `a`, `a + 1`, ... in ascending order (R64, R254). -/
def Memory.writeBytes : Memory → Nat → List Byte → Memory
  | m, _, [] => m
  | m, a, v :: vs => Memory.writeBytes (Memory.write m a v) (a + 1) vs

/-- The reads of Dxyn: the `n` bytes at `a`, `a + 1`, ... (R64, R172). -/
def Memory.readBytes (m : Memory) (a : Nat) : Nat → List Byte
  | 0 => []
  | n + 1 => Memory.read m a :: Memory.readBytes m (a + 1) n

/-- Every address of an access of `n` bytes from `a` is below 4096. The sum is a natural number: it never
wraps (R60, R62, R14; log 14). An access of no bytes is in bounds wherever `a` is (R171). -/
def inBounds (a n : Nat) : Bool := n == 0 || a + n ≤ Config.memSize

/-- The addresses of a memory rise strictly, from above `lo`. -/
def Memory.risesAbove : Nat → Memory → Bool
  | _, [] => true
  | lo, (a, _) :: m => lo < a && Memory.risesAbove a m

/-- The addresses of a memory rise strictly. -/
def Memory.rises : Memory → Bool
  | [] => true
  | (a, _) :: m => Memory.risesAbove a m

/-- The canonical form: addresses strictly rising, each of them below 4096, and no entry equal to what an
unlisted address reads as. -/
def Memory.wf (m : Memory) : Bool :=
  Memory.rises m && m.all (fun c => c.1 < Config.memSize && c.2 != Memory.initialByte c.1)

end Sys2Proof.Machine
end

