-- ==== Sys2Proof/Machine/Ops.lean ====
section
/-! DEFINITION. The named operations the meanings share: registers, the return stack, the framebuffer, the
fetch (spec/30_encoding.md R82), the common pc advance (R88), the skip (R89), raising a fault
(spec/60_exceptions.md R212, R213), and the cycle around an execute phase (R85). There is no return from a fault (R216). -/

namespace Sys2Proof.Machine

/-- `V[x]` (R13). -/
def State.reg (s : State) (x : Reg) : Byte := s.V.get x

/-- `V[x] <- b` (R13). Every register can be written; none is hardwired (R31). -/
def State.setReg (s : State) (x : Reg) (b : Byte) : State := { s with V := s.V.set x.val b x.isLt }

/-- `pc <- target` (R13). -/
def State.setPc (s : State) (target : Word) : State := { s with pc := target }

/-- `I <- v` (R13). -/
def State.setI (s : State) (v : Word) : State := { s with I := v }

/-- `DT <- v` (R13). -/
def State.setDT (s : State) (v : Byte) : State := { s with DT := v }

/-- `ST <- v` (R13). -/
def State.setST (s : State) (v : Byte) : State := { s with ST := v }

/-- Memory after the writes of an instruction. -/
def State.setMem (s : State) (m : Memory) : State := { s with mem := m }

/-- The framebuffer after the writes of an instruction. -/
def State.setFb (s : State) (f : Framebuffer) : State := { s with fb := f }

/-- All 16 key states at once (R45). Only KEYS_IN does it. -/
def State.setKeys (s : State) (k : Vector Bool 16) : State := { s with keys := k }

/-- One more RAND_IN byte has been taken (R139; log 4). -/
def State.countDraw (s : State) : State := { s with draws := s.draws + 1 }

/-- The state a faulting cycle leaves: the state before it, with only `fault` set (R213). -/
def State.withFault (s : State) (r : FaultRecord) : State := { s with fault := some r }

/-- The common advance, `pc <- a + 2`, before the execute phase of every instruction (R88). The fetch
check keeps the sum within 16 bits (R38). -/
def State.advance (s : State) : State := s.setPc (s.pc + 2)

/-- A taken skip, `pc <- pc + 2` on the advanced pc; an untaken one leaves it (R89). -/
def State.skipIf (s : State) (c : Bool) : State := if c then s.setPc (s.pc + 2) else s

/-- `stack[sp] <- v; sp <- sp + 1` with the slot number `sp` already known to exist (R102, R40). -/
def State.push (s : State) (v : Word) (h : s.sp.toNat < 16) : State :=
  { s with stack := s.stack.set s.sp.toNat v h, sp := s.sp + 1 }

/-- `sp <- sp - 1`; the popped slot keeps its value (R101, R40). -/
def State.pop (s : State) : State := { s with sp := s.sp - 1 }

/-- `keys[k]` (R13). -/
def State.key (s : State) (k : Reg) : Bool := s.keys.get k

/-- `fb[y][x]` (R13). -/
def Framebuffer.pixel (f : Framebuffer) (y : Fin 32) (x : Fin 64) : Bool := (f.get y).get x

/-- `fb[y][x] <- b` (R13). -/
def Framebuffer.setPixel (f : Framebuffer) (y : Fin 32) (x : Fin 64) (b : Bool) : Framebuffer :=
  f.set y.val ((f.get y).set x.val b x.isLt) y.isLt

/-- The fetch: both bytes must be below 4096; the word is big-endian (R82, R61). -/
def fetchWord (s : State) : Option Word :=
  if Config.memSize ≤ s.pc.toNat ∨ Config.memSize ≤ s.pc.toNat + 1 then none
  else some (wordOfBytes (s.mem.read s.pc.toNat) (s.mem.read (s.pc.toNat + 1)))

/-- Raising a fault: the cycle ends with the record {code, opcode, pc}, where pc is the address the cycle
fetched from (R212). `s` is the state before the cycle: nothing has been written (R213). -/
def raise (code : FaultCode) (opcode : Option Word) (s : State) : Result :=
  .fault (.raised { code := code, opcode := opcode, pc := s.pc })

/-- A fault of an instruction's own check. Its opcode is the fetched word, which is the encoding of the
decoded instruction (R212, R97). -/
def raiseIn (i : Instr) (code : FaultCode) (s : State) : Result := raise code (some (encode i)) s

/-- FETCH_OUT_OF_BOUNDS: no word was fetched (R82, R212). -/
def raiseFetch (s : State) : Result := raise .fetchOutOfBounds none s

/-- What a decoder error becomes. UNKNOWN_OPCODE carries the word (R93, R212). Two fetched bytes are never
too few, so the other case does not arise; it would be a fetch that brought no opcode. -/
def raiseDecode (e : DecodeError) (s : State) : Result :=
  match e with
  | .unknownOpcode w => raise .unknownOpcode (some w) s
  | .truncated => raiseFetch s

/-- `Cycle(s)` of R85, with the execute phase as an argument: a faulted block takes no step (R214); else fetch,
then decode, then execute (R86). The common advance stands in the execute phase (R88). -/
def runCycle (execute : Instr → State → Result) (s : State) : Result :=
  match s.fault with
  | some r => .fault (.stopped r)
  | none =>
    match fetchWord s with
    | none => raiseFetch s
    | some w =>
      match decode w with
      | .error e => raiseDecode e s
      | .ok i => execute i s

/-- The numeric code of a fault (R210). -/
def FaultCode.number : FaultCode → Nat
  | .fetchOutOfBounds => 1
  | .unknownOpcode => 2
  | .stackOverflow => 3
  | .stackUnderflow => 4
  | .memReadOutOfBounds => 5
  | .memWriteOutOfBounds => 6
  | .keyIndexOutOfRange => 7

end Sys2Proof.Machine
end

