-- ==== Sys2Proof/Machine/Flags.lean ====
section
/-! DEFINITION. Results and VF values of the arithmetic and logic unit (spec/41_alu.md R132, R133). Sums
are natural numbers brought to 8 bits by `mod 256` (spec/00_scope.md R14). -/

namespace Sys2Proof.Machine

/-- `(c ? 1 : 0)` as a register value (R14). -/
def flagByte (c : Bool) : Byte := if c then 1 else 0

/-- A natural number `mod 256` (R14, R132). -/
def mod256 (t : Nat) : Byte := BitVec.ofNat 8 t

/-- The sum of 8xy4 and 7xkk (R126, R121). -/
def sumByte (a b : Byte) : Byte := mod256 (a.toNat + b.toNat)

/-- Carry: `a + b > 255` (R126, R133). -/
def carryFlag (a b : Byte) : Byte := flagByte (decide (255 < a.toNat + b.toNat))

/-- The difference `(a + 256 - b) mod 256` (R127, R129). -/
def differenceByte (a b : Byte) : Byte := mod256 (a.toNat + 256 - b.toNat)

/-- No borrow: `a >= b` (R127, R129, R133). -/
def noBorrowFlag (a b : Byte) : Byte := flagByte (decide (b.toNat ≤ a.toNat))

/-- `s >> 1` (R128). -/
def shiftRightByte (s : Byte) : Byte := s >>> 1

/-- `s & 1`, the bit shifted out to the right (R128, R133). -/
def shiftRightFlag (s : Byte) : Byte := s &&& 1

/-- `(s << 1) mod 256` (R130). -/
def shiftLeftByte (s : Byte) : Byte := s <<< 1

/-- `s >> 7`, the bit shifted out to the left (R130, R133). -/
def shiftLeftFlag (s : Byte) : Byte := s >>> 7

/-- `V[x] <- r`, then `V[0xF] <- flag`: VF is written last (R15, R133). -/
def State.setRegFlag (s : State) (x : Reg) (r flag : Byte) : State := (s.setReg x r).setReg regVF flag

end Sys2Proof.Machine
end

