-- ==== Sys2Proof/Machine/Operands.lean ====
section
/-! DEFINITION. Operands: the shift source and the key pick (the open parameters of spec/00_scope.md R11),
the pressed keys, jump targets, the decimal digits, and the register and sprite runs of memory accesses
(spec/42_index_memory.md R156, spec/43_graphics.md R172). -/

namespace Sys2Proof.Machine

/-- SHIFT_SOURCE: the default and normative value (R134; D25, C7; log 5). -/
def shiftSource : Config.ShiftSource := .vx

/-- The value 8xy6 and 8xyE shift: vx, or vy under SHIFT_SOURCE = `Vy` (R134). -/
def shiftOperand (p : Config.ShiftSource) (s : State) (x y : Reg) : Byte :=
  match p with
  | .vx => s.reg x
  | .vy => s.reg y

/-- The register and key numbers in ascending order. -/
def allRegs : List Reg := [0, 1, 2, 3, 4, 5, 6, 7, 8, 9, 10, 11, 12, 13, 14, 15]

/-- The pressed keys, in ascending order (the set P of R193). -/
def pressedKeys (s : State) : List Reg := allRegs.filter s.key

/-- KEYWAIT_PICK: of the pressed keys, given as the lowest and the others in ascending order, the one
Fx0A reports. The default is the lowest (R193; D15; log 6). -/
def keywaitPick (lowest : Reg) (_others : List Reg) : Reg := lowest

/-- The defaults of R11 (log 5, log 6), with the free value on RAND_IN (log 4): what `exec` and `step` run
under. -/
def defaultParameters : Config.Parameters where
  shiftSource := shiftSource
  keywaitPick := keywaitPick
  randIn := Config.randIn

/-- Vx as a key number: present only below 16 (R190, R191; D14; log 9). -/
def keyNumber? (b : Byte) : Option Reg := if h : b.toNat < 16 then some ⟨b.toNat, h⟩ else none

/-- `zext_16(nnn)` (R13, R83). -/
def zext16 (nnn : Addr) : Word := nnn.setWidth 16

/-- The target of Bnnn, nnn + v0: at most 0x10FE, so it fits 16 bits and is not reduced (R107, R38). -/
def jumpV0Target (nnn : Addr) (v0 : Byte) : Word := BitVec.ofNat 16 (nnn.toNat + v0.toNat)

/-- `(i0 + vx) mod 65536` (R151). -/
def indexSum (i0 : Word) (vx : Byte) : Word := BitVec.ofNat 16 (i0.toNat + vx.toNat)

/-- `vx * 5`, the glyph of digit vx; vx is not masked (R152). -/
def glyphAddress (vx : Byte) : Word := BitVec.ofNat 16 (vx.toNat * 5)

/-- The hundreds, tens and ones of vx (R153). -/
def decimalDigits (vx : Byte) : List Byte :=
  [mod256 (vx.toNat / 100), mod256 (vx.toNat / 10 % 10), mod256 (vx.toNat % 10)]

/-- The registers V0..Vx in ascending order (R154, R155). -/
def regsUpTo (x : Reg) : List Reg := allRegs.take (x.val + 1)

/-- The values of V0..Vx in ascending order: what Fx55 stores (R154). -/
def regBytes (s : State) (x : Reg) : List Byte := (regsUpTo x).map s.reg

/-- `V[k] <- MemRead(i0 + k, 1)` for each register of the list, in order (R155). -/
def loadRegList (i0 : Nat) (s : State) : List Reg → State
  | [] => s
  | k :: ks => loadRegList i0 (s.setReg k (s.mem.read (i0 + k.val))) ks

/-- The bytes of an n-row sprite, from mem[I], read before anything is drawn (R172, R175). -/
def spriteBytes (s : State) (n : Nibble) : List Byte := s.mem.readBytes s.I.toNat n.toNat

end Sys2Proof.Machine
end

