-- ==== Sys2Proof/Machine/Alu.lean ====
section
/-! DEFINITION. The arithmetic and logic unit (spec/41_alu.md): 6xkk, 7xkk, 8xy0 to 8xy7, 8xyE and Cxkk.
Operands are read from the state before the cycle, whose V registers the advance leaves alone (R15). -/

namespace Sys2Proof.Machine

/-- The end of an instruction whose one effect is `V[x] <- r`. -/
def writeReg (x : Reg) (r : Byte) (s : State) : Result := .next (s.advance.setReg x r)

/-- The end of a flag writer: `V[x] <- r`, then `V[0xF] <- flag` (R133). -/
def writeRegFlag (x : Reg) (r flag : Byte) (s : State) : Result :=
  .next (s.advance.setRegFlag x r flag)

/-- `6xkk` (R120): `V[x] <- kk`. -/
def execLdImm (x : Reg) (kk : Byte) (s : State) : Result := writeReg x kk s

/-- `7xkk` (R121): `V[x] <- (vx + kk) mod 256`, with no flag. -/
def execAddImm (x : Reg) (kk : Byte) (s : State) : Result := writeReg x (sumByte (s.reg x) kk) s

/-- `8xy0` (R122): `V[x] <- vy`. -/
def execLdReg (x y : Reg) (s : State) : Result := writeReg x (s.reg y) s

/-- `8xy1` (R123): `V[x] <- vx | vy`; VF is not reset. -/
def execOrReg (x y : Reg) (s : State) : Result := writeReg x (s.reg x ||| s.reg y) s

/-- `8xy2` (R124): `V[x] <- vx & vy`. -/
def execAndReg (x y : Reg) (s : State) : Result := writeReg x (s.reg x &&& s.reg y) s

/-- `8xy3` (R125): `V[x] <- vx ^ vy`. -/
def execXorReg (x y : Reg) (s : State) : Result := writeReg x (s.reg x ^^^ s.reg y) s

/-- `8xy4` (R126): the sum, VF = carry. -/
def execAddReg (x y : Reg) (s : State) : Result :=
  writeRegFlag x (sumByte (s.reg x) (s.reg y)) (carryFlag (s.reg x) (s.reg y)) s

/-- `8xy5` (R127): vx - vy, VF = no borrow. -/
def execSubReg (x y : Reg) (s : State) : Result :=
  writeRegFlag x (differenceByte (s.reg x) (s.reg y)) (noBorrowFlag (s.reg x) (s.reg y)) s

/-- `8xy7` (R129): vy - vx, VF = no borrow. -/
def execSubnReg (x y : Reg) (s : State) : Result :=
  writeRegFlag x (differenceByte (s.reg y) (s.reg x)) (noBorrowFlag (s.reg y) (s.reg x)) s

/-- 8xy6 under either value of SHIFT_SOURCE (R128, R134). -/
def shiftRightFrom (p : Config.ShiftSource) (x y : Reg) (s : State) : Result :=
  writeRegFlag x (shiftRightByte (shiftOperand p s x y)) (shiftRightFlag (shiftOperand p s x y)) s

/-- 8xyE under either value of SHIFT_SOURCE (R130, R134). -/
def shiftLeftFrom (p : Config.ShiftSource) (x y : Reg) (s : State) : Result :=
  writeRegFlag x (shiftLeftByte (shiftOperand p s x y)) (shiftLeftFlag (shiftOperand p s x y)) s

/-- `8xy6` (R128), under the block's SHIFT_SOURCE (log 5). -/
def execShr (x y : Reg) (s : State) : Result := shiftRightFrom shiftSource x y s

/-- `8xyE` (R130), under the block's SHIFT_SOURCE (log 5). -/
def execShl (x y : Reg) (s : State) : Result := shiftLeftFrom shiftSource x y s

/-- Cxkk with the drawn byte given: `V[x] <- r & kk`, and one draw has been taken (R131, R139). -/
def writeRandom (r : Byte) (x : Reg) (kk : Byte) (s : State) : Result :=
  .next ((s.advance.setReg x (r &&& kk)).countDraw)

/-- `Cxkk` (R131): the byte drawn is a free value (R139; log 4). -/
def execRnd (x : Reg) (kk : Byte) (s : State) : Result := writeRandom (Config.randIn s.draws) x kk s

end Sys2Proof.Machine
end

