-- ==== Sys2Proof/Machine/ControlFlow.lean ====
section
/-! DEFINITION. The control flow unit (spec/40_control_flow.md): 1nnn, 00EE, 2nnn, 3xkk, 4xkk, 5xy0, 9xy0
and Bnnn. Each meaning takes the state before the cycle and starts with the common advance (R88). -/

namespace Sys2Proof.Machine

/-- The end of a jump: pc takes the target instead of the advanced value (R88). The target is not
checked; the next fetch is (R108). -/
def jumpTo (target : Word) (s : State) : Result := .next (s.advance.setPc target)

/-- The end of a conditional skip (R89). -/
def skipWhen (c : Bool) (s : State) : Result := .next (s.advance.skipIf c)

/-- `1nnn` (R100): `pc <- zext_16(nnn)`. -/
def execJp (nnn : Addr) (s : State) : Result := jumpTo (zext16 nnn) s

/-- `00EE` (R101): STACK_UNDERFLOW when sp = 0; else the top slot is popped into pc and not cleared. An
sp above 16 names no slot: the model is stuck there (log 7). -/
def execRet (s : State) : Result :=
  if s.sp = 0 then raiseIn .ret .stackUnderflow s
  else
    let s1 := s.advance.pop
    if h : s1.sp.toNat < 16 then .next (s1.setPc (s1.stack[s1.sp.toNat]'h))
    else .fault (.illegalStackPointer s.sp)

/-- `2nnn` (R102): STACK_OVERFLOW when sp = 16; else the advanced pc, a + 2, is pushed. An sp above 16
names no slot: the model is stuck there (log 7). -/
def execCall (nnn : Addr) (s : State) : Result :=
  if h : s.advance.sp.toNat < 16 then
    .next ((s.advance.push s.advance.pc h).setPc (zext16 nnn))
  else if s.sp = 16 then raiseIn (.call nnn) .stackOverflow s
  else .fault (.illegalStackPointer s.sp)

/-- `3xkk` (R103): skip if vx = kk. -/
def execSeImm (x : Reg) (kk : Byte) (s : State) : Result := skipWhen (s.reg x == kk) s

/-- `4xkk` (R104): skip if vx != kk. -/
def execSneImm (x : Reg) (kk : Byte) (s : State) : Result := skipWhen (s.reg x != kk) s

/-- `5xy0` (R105): skip if vx = vy. -/
def execSeReg (x y : Reg) (s : State) : Result := skipWhen (s.reg x == s.reg y) s

/-- `9xy0` (R106): skip if vx != vy. -/
def execSneReg (x y : Reg) (s : State) : Result := skipWhen (s.reg x != s.reg y) s

/-- `Bnnn` (R107): `pc <- zext_16(nnn) + v0`, not reduced (log 14). -/
def execJpV0 (nnn : Addr) (s : State) : Result := jumpTo (jumpV0Target nnn (s.reg 0)) s

end Sys2Proof.Machine
end

