-- ==== Sys2Proof/Machine/Graphics.lean ====
section
/-! DEFINITION. The graphics unit (spec/43_graphics.md): 00E0 and Dxyn. The sprite walk carries the
framebuffer and the collision so far; bit 7 of a sprite byte is its leftmost pixel and every coordinate
wraps (R172, R173; log 13). -/

namespace Sys2Proof.Machine

/-- One drawn 1-bit: the collision is noted before the pixel is toggled (R174). -/
def togglePixel (py : Fin 32) (px : Fin 64) (d : Framebuffer × Bool) : Framebuffer × Bool :=
  (d.1.setPixel py px (!d.1.pixel py px), d.2 || d.1.pixel py px)

/-- Bit c of a sprite row, drawn at column `(cx + c) mod 64` if it is 1 (R172, R173). -/
def drawBit (cx : Nat) (py : Fin 32) (b : Byte) (d : Framebuffer × Bool) (c : Nat) :
    Framebuffer × Bool :=
  if b.getLsbD (7 - c) then togglePixel py (Fin.ofNat 64 (cx + c)) d else d

/-- One sprite row: columns 0 to 7 (R171). -/
def drawRow (cx : Nat) (py : Fin 32) (b : Byte) (d : Framebuffer × Bool) : Framebuffer × Bool :=
  [0, 1, 2, 3, 4, 5, 6, 7].foldl (drawBit cx py b) d

/-- The sprite walk: row r goes to row `(cy + r) mod 32`; `r` is the number of the first byte given
(R171, R173). -/
def drawRows (cx cy : Nat) : Nat → List Byte → Framebuffer × Bool → Framebuffer × Bool
  | _, [], d => d
  | r, b :: bs, d => drawRows cx cy (r + 1) bs (drawRow cx (Fin.ofNat 32 (cy + r)) b d)

/-- A whole sprite drawn at (cx, cy) on a framebuffer, with no collision so far. -/
def drawSprite (cx cy : Byte) (sprite : List Byte) (f : Framebuffer) : Framebuffer × Bool :=
  drawRows cx.toNat cy.toNat 0 sprite (f, false)

/-- The end of Dxyn: the framebuffer, and VF = the collision, written once (R171, R174). -/
def writeDrawing (d : Framebuffer × Bool) (s : State) : Result :=
  .next ((s.advance.setFb d.1).setReg regVF (flagByte d.2))

/-- `00E0` (R170): every pixel off. -/
def execCls (s : State) : Result := .next (s.advance.setFb Framebuffer.blank)

/-- `Dxyn` (R171): the coordinates and I are read before VF is written; a sprite byte beyond memory raises
MEM_READ_OUT_OF_BOUNDS with nothing changed; n = 0 reads and draws nothing and leaves VF = 0. -/
def execDrw (x y : Reg) (n : Nibble) (s : State) : Result :=
  if inBounds s.I.toNat n.toNat then
    writeDrawing (drawSprite (s.reg x) (s.reg y) (spriteBytes s n) s.fb) s
  else raiseIn (.drw x y n) .memReadOutOfBounds s

end Sys2Proof.Machine
end

