-- ==== Sys2Proof/Machine/IndexMemory.lean ====
section
/-! DEFINITION. The index register and memory unit (spec/42_index_memory.md): Annn, Fx1E, Fx29, Fx33, Fx55
and Fx65. Bounds are checked on unbounded sums before anything is written (R62). -/

namespace Sys2Proof.Machine

/-- The end of an instruction whose one effect is `I <- v`. -/
def writeI (v : Word) (s : State) : Result := .next (s.advance.setI v)

/-- The end of a storing instruction: the bytes go to mem[I], mem[I+1], ... if all of the range is in
bounds; else MEM_WRITE_OUT_OF_BOUNDS with no byte written. I is not changed (R62, R156). -/
def storeBytes (i : Instr) (bytes : List Byte) (s : State) : Result :=
  if inBounds s.I.toNat bytes.length then
    .next (s.advance.setMem (s.mem.writeBytes s.I.toNat bytes))
  else raiseIn i .memWriteOutOfBounds s

/-- `Annn` (R150): `I <- zext_16(nnn)`. -/
def execLdI (nnn : Addr) (s : State) : Result := writeI (zext16 nnn) s

/-- `Fx1E` (R151): `I <- (i0 + vx) mod 65536`, with no flag (log 11). -/
def execAddIVx (x : Reg) (s : State) : Result := writeI (indexSum s.I (s.reg x)) s

/-- `Fx29` (R152): `I <- vx * 5`. -/
def execLdFVx (x : Reg) (s : State) : Result := writeI (glyphAddress (s.reg x)) s

/-- `Fx33` (R153): the three decimal digits of vx. -/
def execLdBVx (x : Reg) (s : State) : Result := storeBytes (.ldBVx x) (decimalDigits (s.reg x)) s

/-- `Fx55` (R154): V0 to Vx, I unchanged (log 12). -/
def execStoreRegs (x : Reg) (s : State) : Result := storeBytes (.storeRegs x) (regBytes s x) s

/-- `Fx65` (R155): V0 to Vx from memory, I unchanged (log 12); MEM_READ_OUT_OF_BOUNDS (C2) with no
register written. -/
def execLoadRegs (x : Reg) (s : State) : Result :=
  if inBounds s.I.toNat (x.val + 1) then .next (loadRegList s.I.toNat s.advance (regsUpTo x))
  else raiseIn (.loadRegs x) .memReadOutOfBounds s

end Sys2Proof.Machine
end

