-- ==== Sys2Proof/Machine/KeysTimers.lean ====
section
/-! DEFINITION. The keypad and timer instructions (spec/44_keys_timers.md): Ex9E, ExA1, Fx07, Fx0A, Fx15 and
Fx18. Keys are read as they stand at the start of the cycle (R197), and no instruction writes them (R45). -/

namespace Sys2Proof.Machine

/-- A skip on the state of key Vx: KEY_INDEX_OUT_OF_RANGE for a Vx of 16 or more, else a skip if the key's
state is `want` (R190, R191; log 9). -/
def skipOnKey (i : Instr) (want : Bool) (x : Reg) (s : State) : Result :=
  match keyNumber? (s.reg x) with
  | none => raiseIn i .keyIndexOutOfRange s
  | some k => skipWhen (s.key k == want) s

/-- Fx0A under a given KEYWAIT_PICK: with no key pressed the advance is undone, so the instruction runs
again; else Vx takes the number of the key picked (R193, R194). -/
def waitForKey (pick : Reg → List Reg → Reg) (x : Reg) (s : State) : Result :=
  match pressedKeys s with
  | [] => .next (s.advance.setPc (s.advance.pc - 2))
  | k :: ks => writeReg x (BitVec.ofNat 8 (pick k ks).val) s

/-- `Ex9E` (R190): skip if key Vx is pressed. -/
def execSkp (x : Reg) (s : State) : Result := skipOnKey (.skp x) true x s

/-- `ExA1` (R191): skip if key Vx is not pressed. -/
def execSknp (x : Reg) (s : State) : Result := skipOnKey (.sknp x) false x s

/-- `Fx07` (R192): `V[x] <- DT`. -/
def execLdVxDT (x : Reg) (s : State) : Result := writeReg x s.DT s

/-- `Fx0A` (R193), under the block's KEYWAIT_PICK (log 6). -/
def execLdVxK (x : Reg) (s : State) : Result := waitForKey keywaitPick x s

/-- `Fx15` (R195): `DT <- vx`. -/
def execLdDTVx (x : Reg) (s : State) : Result := .next (s.advance.setDT (s.reg x))

/-- `Fx18` (R196): `ST <- vx`. -/
def execLdSTVx (x : Reg) (s : State) : Result := .next (s.advance.setST (s.reg x))

end Sys2Proof.Machine
end

