-- ==== Sys2Proof/Machine/Step.lean ====
section
/-! DEFINITION. One CYCLE transaction (spec/30_encoding.md R85), and an opcode placed where it is fetched. -/

namespace Sys2Proof.Machine

/-- `Cycle(s)` of R85, with the three outcomes of R9, under the defaults of R11. -/
def step (s : State) : Host.Outcome State Fault Refusal := runCycle exec s

/-- The state with a 16-bit opcode stored where the next cycle fetches it, high byte first (R61). It stands
for a LOAD of those two bytes (log 8); nothing but memory changes. Bits above the opcode's 16 are the
zeros that the host's numbering puts there. -/
def State.withFetchWord (s : State) (_nbits w : Nat) : State :=
  { s with
    mem := s.mem.writeBytes s.pc.toNat
      [highByte (BitVec.ofNat 16 w), lowByte (BitVec.ofNat 16 w)] }

end Sys2Proof.Machine
end

