-- ==== Sys2Proof/Machine/Parameters.lean ====
section
/-! DEFINITION. The machine under any value of the open parameters and any input on RAND_IN (spec/00_scope.md
R8, R11). `exec` and `step` are this machine under `defaultParameters` (log 4, log 5, log 6). -/

namespace Sys2Proof.Machine

/-- The execute phase under `p`: the two shifts (R134), Cxkk (R139) and Fx0A (R193) read it; the other
instructions do not depend on it. -/
def execUnder (p : Config.Parameters) (i : Instr) (s : State) : Result :=
  match i with
  | .shr x y => shiftRightFrom p.shiftSource x y s
  | .shl x y => shiftLeftFrom p.shiftSource x y s
  | .rnd x kk => writeRandom (p.randIn s.draws) x kk s
  | .ldVxK x => waitForKey p.keywaitPick x s
  | .cls | .ret | .jp _ | .call _ | .seImm _ _ | .sneImm _ _ | .seReg _ _ | .ldImm _ _
  | .addImm _ _ | .ldReg _ _ | .orReg _ _ | .andReg _ _ | .xorReg _ _ | .addReg _ _ | .subReg _ _
  | .subnReg _ _ | .sneReg _ _ | .ldI _ | .jpV0 _ | .drw _ _ _ | .skp _ | .sknp _ | .ldVxDT _
  | .ldDTVx _ | .ldSTVx _ | .addIVx _ | .ldFVx _ | .ldBVx _ | .storeRegs _ | .loadRegs _ => exec i s

/-- `Cycle(s)` of R85 under `p`. -/
def stepUnder (p : Config.Parameters) (s : State) : Result := runCycle (execUnder p) s

end Sys2Proof.Machine
end

