-- ==== Sys2Proof/Machine/Transactions.lean ====
section
/-! DEFINITION. The host's transactions and the block's outputs (spec/00_scope.md R8): CONSTRUCT, LOAD, CYCLE,
TICK and KEYS_IN, in any order the host chooses (R6, R231), and FB_OUT, SOUND_ON and FAULT. RAND_IN and the
open parameters SHIFT_SOURCE and KEYWAIT_PICK are an argument of every run (`Config.Parameters`; log 4,
log 5, log 6). -/

namespace Sys2Proof.Machine

/-- The reset values the source does not state (R251, 'draw-able'), and the open parameter FONT.
RESET_UNSPEC = `zero` is `ResetValues.zero`; under RESET_UNSPEC = `draw` they are any values at all
(R11, R34; log 1, log 2, log 3). -/
structure ResetValues where
  V : Vector Byte 16
  I : Word
  stack : Vector Word 16
  DT : Byte
  ST : Byte
  keys : Vector Bool 16
  /-- The font's 80 bytes, from 0x000 (R50). -/
  font : Vector Byte 80
  /-- The 4016 bytes from 0x050 to 0xFFF (R49). -/
  ram : Vector Byte 4016
deriving DecidableEq, Repr

/-- CONSTRUCT (R250, R251): pc and fb as the source states them, sp and fault as the spec decides them (D4,
D11), the rest as given. `drawn` is how many bytes have been drawn from RAND_IN before: CONSTRUCT does not
rewind the environment's input, so the new machine goes on with bytes not drawn yet (R139, R47, R239; a
choice of the model, log 4). -/
def State.construct (u : ResetValues) (drawn : Nat) : State where
  V := u.V
  I := u.I
  pc := 0x200
  sp := 0
  stack := u.stack
  DT := u.DT
  ST := u.ST
  mem := Memory.writeBytes (Memory.writeBytes [] 0 u.font.toList) Config.fontSize u.ram.toList
  fb := Framebuffer.blank
  keys := u.keys
  fault := none
  draws := drawn

/-- The defaults of R11: RESET_UNSPEC = `zero` and the font of R50. -/
def ResetValues.zero : ResetValues where
  V := Vector.replicate 16 0
  I := 0
  stack := Vector.replicate 16 0
  DT := 0
  ST := 0
  keys := Vector.replicate 16 false
  font := ⟨fontBytes.toArray, rfl⟩
  ram := Vector.replicate 4016 0

/-- `if T > 0: T <- T - 1` (R230). -/
def tickTimer (t : Byte) : Byte := if t = 0 then 0 else t - 1

/-- TICK (R230): both timers; a faulted block has no step (R214). -/
def tick (s : State) : Option State :=
  match s.fault with
  | some _ => none
  | none => some ((s.setDT (tickTimer s.DT)).setST (tickTimer s.ST))

/-- KEYS_IN (R45, R238): all 16 key states at once; a faulted block has no step (R214). -/
def keysIn (k : Vector Bool 16) (s : State) : Option State :=
  match s.fault with
  | some _ => none
  | none => some (s.setKeys k)

/-- `Load(s, bytes)` (R254): none when the image is longer than 3584 bytes and LOAD fails whole (R255;
log 8); else the bytes are copied to memory from 0x200 and nothing else changes. -/
def load (bytes : List Byte) (s : State) : Option State :=
  if Config.memSize - Config.programBase < bytes.length then none
  else some (s.setMem (s.mem.writeBytes Config.programBase bytes))

/-- The state a CYCLE leaves (R9, R213): the next state, or the state before it with only `fault` set.
There is none on a faulted block (R214), nor where the model is stuck or refuses. -/
def cycle (p : Config.Parameters) (s : State) : Option State :=
  match stepUnder p s with
  | .next t => some t
  | .fault (.raised r) => some (s.withFault r)
  | .fault (.stopped _) => none
  | .fault (.illegalStackPointer _) => none
  | .refused _ => none

/-- The host's moves (R8). Whether FONT and RESET_UNSPEC, parameters of the block (R11), stay the same over all
CONSTRUCTs of a session the spec does not say. DESIGN CHOICE (log 18): each CONSTRUCT brings its own font and
reset values, while SHIFT_SOURCE and KEYWAIT_PICK stand for the whole of a `Session.run`. -/
inductive Transaction where
  /-- CONSTRUCT (R250), with this CONSTRUCT's own font and reset values (log 18). -/
  | construct (u : ResetValues)
  /-- LOAD(bytes) (R254). -/
  | load (bytes : List Byte)
  /-- CYCLE (R85). -/
  | cycle
  /-- TICK (R230). -/
  | tick
  /-- KEYS_IN(k) (R45). -/
  | keysIn (k : Vector Bool 16)
deriving DecidableEq, Repr

/-- The block as the host drives it. LOAD is a move at most once and only before the first CYCLE (R256, R257;
log 8): `loaded` says that an image has been copied since CONSTRUCT, `started` that a CYCLE has been
issued. -/
structure Session where
  state : State
  loaded : Bool
  started : Bool
deriving DecidableEq, Repr

/-- What a host's move comes to. -/
inductive HostResult where
  /-- The transaction has run. -/
  | done (t : Session)
  /-- LOAD failed whole: the block is unchanged and the host is told (R255, R217). -/
  | loadFailed (t : Session)
  /-- The block has no such move: CYCLE, TICK, KEYS_IN or LOAD on a faulted block (R214), a second LOAD
  (R257) or one after the first CYCLE (R256), or a CYCLE in which the model is stuck (log 7). -/
  | noMove
deriving DecidableEq, Repr

/-- The session right after CONSTRUCT, with `drawn` bytes drawn before it. -/
def Session.fresh (u : ResetValues) (drawn : Nat) : Session :=
  { state := State.construct u drawn, loaded := false, started := false }

/-- A move that changes only the block's state, if the block has it. -/
def Session.moveTo (h : Session) (t : Option State) : HostResult :=
  match t with
  | some s => .done { h with state := s }
  | none => .noMove

/-- One transaction of R8, under `p`. Each is atomic (R65) and CONSTRUCT is always a move (R250, R214); it
carries the count of drawn bytes on (log 4). -/
def Session.transact (p : Config.Parameters) (m : Transaction) (h : Session) : HostResult :=
  match m with
  | .construct u => .done (Session.fresh u h.state.draws)
  | .load bytes =>
    if h.loaded || h.started || h.state.fault.isSome then .noMove
    else
      match load bytes h.state with
      | some s => .done { h with state := s, loaded := true }
      | none => .loadFailed h
  | .cycle => Session.moveTo { h with started := true } (cycle p h.state)
  | .tick => Session.moveTo h (tick h.state)
  | .keysIn k => Session.moveTo h (keysIn k h.state)

/-- A whole order of transactions (R6), under `p`: none as soon as the host asks for a move there is not. -/
def Session.run (p : Config.Parameters) : List Transaction → Session → Option Session
  | [], h => some h
  | m :: ms, h =>
    match h.transact p m with
    | .done t => Session.run p ms t
    | .loadFailed t => Session.run p ms t
    | .noMove => none

/-- FB_OUT (R236): the 2048 pixels, row-major: pixel (x, y) is element y * 64 + x (R44). -/
def State.fbOut (s : State) : List Bool := (s.fb.toList.map Vector.toList).flatten

/-- SOUND_ON (R237): `ST != 0`. -/
def State.soundOn (s : State) : Bool := s.ST != 0

/-- FAULT (R8, R212): absent, or the record of the fault the block has stopped on. -/
def State.faultOut (s : State) : Option FaultRecord := s.fault

end Sys2Proof.Machine
end

