-- ==== Sys2Proof/Safety.lean ====
section
/-! DEFINITION. The terms claims use: the invariants of spec/10_state.md R51, the ends of a run
(spec/70_reset_and_hazards.md R262), and what an instruction leaves unchanged. -/

namespace Sys2Proof.Machine

/-- The largest pc of R51: the largest target of Bnnn. -/
abbrev maxPc : Nat := 0x10FE

/-- The invariants of R51 that the field widths do not already give, with what keeps them: sp counts the
occupied slots, each occupied slot holds a return address a + 2 with a fetchable a (R102), pc is within
its range, and memory has its canonical form. -/
structure State.Inv (s : State) : Prop where
  sp_le : s.sp.toNat ≤ 16
  pc_le : s.pc.toNat ≤ maxPc
  stack_le : ∀ j : Fin 16, j.val < s.sp.toNat → (s.stack.get j).toNat ≤ Config.memSize
  mem_wf : s.mem.wf = true

/-- A run ends successfully here: no fault, and the word at a fetchable pc is a jump to itself (R262). -/
def State.EndsInSuccess (s : State) : Prop :=
  s.fault = none ∧ ∃ nnn : Addr, zext16 nnn = s.pc ∧ fetchWord s = some (encode (.jp nnn))

/-- A run ends in failure at a faulted state (R262). -/
def State.EndsInFailure (s : State) : Prop := s.fault.isSome = true

/-- The program waits at an Fx0A with no key pressed: no end of a run (R262, R194). -/
def State.WaitsForKey (s : State) : Prop :=
  s.fault = none ∧ (∃ x : Reg, fetchWord s = some (encode (.ldVxK x))) ∧
    ∀ k : Reg, s.key k = false

/-- The kinds of state, other than the V registers and pc, that an instruction may write. -/
inductive Part where
  | index | stack | delay | sound | memory | frame | draws
deriving DecidableEq, Repr

/-- What an instruction leaves unchanged from `s` to `t`: every V register outside `regs`, every kind of
state outside `parts`, and always the keys (R45) and `fault` (R46). Memory is compared byte for byte.
Nothing is said of pc. -/
structure Frame (regs : List Reg) (parts : List Part) (s t : State) : Prop where
  reg : ∀ k : Reg, k ∉ regs → t.reg k = s.reg k
  index : Part.index ∉ parts → t.I = s.I
  stack : Part.stack ∉ parts → t.sp = s.sp ∧ t.stack = s.stack
  delay : Part.delay ∉ parts → t.DT = s.DT
  sound : Part.sound ∉ parts → t.ST = s.ST
  memory : Part.memory ∉ parts → ∀ a : Nat, t.mem.read a = s.mem.read a
  frame : Part.frame ∉ parts → t.fb = s.fb
  draws : Part.draws ∉ parts → t.draws = s.draws
  keys : t.keys = s.keys
  fault : t.fault = s.fault

/-- Whether an n-row sprite at mem[I], drawn at (cx, cy), has a 1-bit at framebuffer pixel (px, py): the
pixel lies c columns and r rows from the start, both taken around the edges, and bit 7 - c of byte r is
1 (R172, R173). -/
def drawnAt (s : State) (cx cy : Byte) (n : Nibble) (py : Fin 32) (px : Fin 64) : Bool :=
  let c := (px.val + 64 - cx.toNat % 64) % 64
  let r := (py.val + 32 - cy.toNat % 32) % 32
  decide (r < n.toNat) && decide (c < 8) && (s.mem.read (s.I.toNat + r)).getLsbD (7 - c)

/-- The sprite of Dxyn can be read: n = 0, or its last byte is in memory (R171). -/
def SpriteReadable (s : State) (n : Nibble) : Prop :=
  n.toNat = 0 ∨ s.I.toNat + n.toNat - 1 < Config.memSize

/-- The word of `i` carries the bits that the mask and match row of R91 fix. -/
def HasPattern (i : Instr) (mask value : Word) : Prop := encode i &&& mask = value

/-- The table of R210: the fault of an instruction's own check, where its condition holds. The instructions of
R211 have none. -/
def ownFault (i : Instr) (s : State) : Option FaultCode :=
  match i with
  | .ret => if s.sp.toNat = 0 then some .stackUnderflow else none
  | .call _ => if s.sp.toNat = 16 then some .stackOverflow else none
  | .drw _ _ n =>
    if 0 < n.toNat ∧ 4096 ≤ s.I.toNat + n.toNat - 1 then some .memReadOutOfBounds else none
  | .loadRegs x => if 4096 ≤ s.I.toNat + x.val then some .memReadOutOfBounds else none
  | .ldBVx _ => if 4096 ≤ s.I.toNat + 2 then some .memWriteOutOfBounds else none
  | .storeRegs x => if 4096 ≤ s.I.toNat + x.val then some .memWriteOutOfBounds else none
  | .skp x | .sknp x => if 16 ≤ (s.reg x).toNat then some .keyIndexOutOfRange else none
  | .cls | .jp _ | .seImm _ _ | .sneImm _ _ | .seReg _ _ | .ldImm _ _ | .addImm _ _ | .ldReg _ _
  | .orReg _ _ | .andReg _ _ | .xorReg _ _ | .addReg _ _ | .subReg _ _ | .shr _ _ | .subnReg _ _
  | .shl _ _ | .sneReg _ _ | .ldI _ | .jpV0 _ | .rnd _ _ | .ldVxDT _ | .ldVxK _ | .ldDTVx _
  | .ldSTVx _ | .addIVx _ | .ldFVx _ => none

/-- The byte at `a` once `bytes` stand in memory from mem[I] on: one of them, or the byte that was there. -/
def byteAfterStore (s : State) (bytes : List Byte) (a : Nat) : Byte :=
  if s.I.toNat ≤ a then (bytes[a - s.I.toNat]?).getD (s.mem.read a) else s.mem.read a

/-- The outcome of a cycle that raises fault `code` in the execute phase of `i` (R9, R212). -/
def faultOutcome (i : Instr) (code : FaultCode) (s : State) : Result :=
  .fault (.raised { code := code, opcode := some (encode i), pc := s.pc })

end Sys2Proof.Machine
end

