-- ==== Sys2Proof/Certificates/Slice0/Obligations.lean ====
section
/-! DEFINITION. The statements for the provers. Each is `def Obligations.<Name> : Prop`; OBLIGATIONS.json lists
them with the rules of spec/ they formalise. `Frame regs parts s t` (Safety.lean) says that from `s` to `t`
nothing changes but pc, the V registers `regs` and the kinds of state `parts`; `HasPattern i mask value` that
the word of `i` carries the pattern of its row (30_encoding.md R91). -/

open Sys2Proof Sys2Proof.Machine

/-! Encoding and decoding. -/

/-- 30_encoding.md R97, R93: decoding the word, or the bytes, of an instruction gives it back with every
operand, whatever bytes follow. -/
def Obligations.DecodeUndoesEncode : Prop :=
  ∀ (i : Instr) (rest : List Byte),
    decode (encode i) = .ok i ∧ decodeBytes (encodeBytes i ++ rest) = .ok (i, rest)

/-- 30_encoding.md R93, R97: a word that decodes is the encoding of the instruction it decodes to, so no
bit of it is dropped. -/
def Obligations.EncodeUndoesDecode : Prop :=
  ∀ (w : Word) (i : Instr), decode w = .ok i → encode i = w

/-- 30_encoding.md R93: "Decode(w) returns the instruction of the one row of rule R91 that w matches. If w
matches no row, it raises UNKNOWN_OPCODE". The dispatch of R90 and the mask table of R91 agree. -/
def Obligations.DecodeAgreesWithOpcodeTable : Prop :=
  ∀ w : Word,
    (∃ i, decode w = .ok i ∧ matchingRows w = [i.row]) ∨
      (decode w = .error (.unknownOpcode w) ∧ matchingRows w = [])

/-- 30_encoding.md section 4 (R94): the words that raise UNKNOWN_OPCODE, space by space. The low nibble of
5xyN and 9xyN counts, which is the spec's decision D22 (log 10). -/
def Obligations.UnknownOpcodeWordSpaces : Prop :=
  ∀ w : Word, decode w = .error (.unknownOpcode w) ↔
    (opField w = 0x0#4 ∧ w ≠ 0x00E0#16 ∧ w ≠ 0x00EE#16) ∨
    (opField w = 0x5#4 ∧ nField w ≠ 0#4) ∨
    (opField w = 0x8#4 ∧ nField w ∈ [0x8#4, 0x9#4, 0xA#4, 0xB#4, 0xC#4, 0xD#4, 0xF#4]) ∨
    (opField w = 0x9#4 ∧ nField w ≠ 0#4) ∨
    (opField w = 0xE#4 ∧ kkField w ∉ [0x9E#8, 0xA1#8]) ∨
    (opField w = 0xF#4 ∧
      kkField w ∉ [0x07#8, 0x0A#8, 0x15#8, 0x18#8, 0x1E#8, 0x29#8, 0x33#8, 0x55#8, 0x65#8])

/-- 95_test_vectors.md Part 1 and Part 2: some of the spec's own words and what they stand for. -/
def Obligations.SampleWordsDecode : Prop :=
  decode 0x00E0#16 = .ok .cls ∧ decode 0x1234#16 = .ok (.jp 0x234#12) ∧
  decode 0x2300#16 = .ok (.call 0x300#12) ∧ decode 0x7101#16 = .ok (.addImm 1 0x01#8) ∧
  decode 0x81F4#16 = .ok (.addReg 1 15) ∧ decode 0x8F06#16 = .ok (.shr 15 0) ∧
  decode 0xD235#16 = .ok (.drw 2 3 5#4) ∧ decode 0xE19E#16 = .ok (.skp 1) ∧
  decode 0xFA33#16 = .ok (.ldBVx 10) ∧ decode 0xF265#16 = .ok (.loadRegs 2) ∧
  decode 0x5121#16 = .error (.unknownOpcode 0x5121#16)

/-! The cycle. -/

/-- 30_encoding.md R85, R86: when no fault is present and the two bytes at pc decode to an instruction, a
step is the execute phase of that instruction on that state, under any parameters; the advance of R88 is part
of it. -/
def Obligations.StepRunsDecodedInstruction : Prop :=
  ∀ (s : State) (i : Instr), s.fault = none → s.pc.toNat + 1 < 4096 →
    decode (wordOfBytes (s.mem.read s.pc.toNat) (s.mem.read (s.pc.toNat + 1))) = .ok i →
    step s = exec i s ∧ ∀ p : Config.Parameters, stepUnder p s = execUnder p i s

/-- 00_scope.md R11, R8: the OPEN parameters SHIFT_SOURCE and KEYWAIT_PICK and the input RAND_IN are arguments.
Under the defaults (logs 4, 5, 6) the parametrised machine is `exec` and `step`, the default pick is a legal
one, and the instructions other than 8xy6, 8xyE, Cxkk and Fx0A depend on none of the three. -/
def Obligations.StepIsTheMachineUnderTheDefaults : Prop :=
  defaultParameters.Legal ∧
  (∀ (i : Instr) (s : State), execUnder defaultParameters i s = exec i s) ∧
  (∀ s : State, stepUnder defaultParameters s = step s) ∧
  (∀ (p : Config.Parameters) (i : Instr) (s : State),
    (∀ x y, i ≠ .shr x y ∧ i ≠ .shl x y) → (∀ x kk, i ≠ .rnd x kk) → (∀ x, i ≠ .ldVxK x) →
    execUnder p i s = exec i s)

/-- 30_encoding.md R82: out of bounds, the cycle raises FETCH_OUT_OF_BOUNDS with no state change; otherwise the
opcode is the two bytes, the first one high. The largest fetchable pc is 0xFFE. That the record has no opcode
and pc = a, and that the state after has `fault` set and nothing else changed, is 60_exceptions.md R212 and
R213, the spec's decision D11 (log 15). -/
def Obligations.FetchIsBoundedAndBigEndian : Prop :=
  ∀ s : State, s.fault = none →
    ((4096 ≤ s.pc.toNat ∨ 4096 ≤ s.pc.toNat + 1) →
      step s = .fault (.raised ⟨.fetchOutOfBounds, none, s.pc⟩) ∧
      ∀ p, cycle p s = some (s.withFault ⟨.fetchOutOfBounds, none, s.pc⟩)) ∧
    (s.pc.toNat + 1 < 4096 →
      fetchWord s = some (s.mem.read s.pc.toNat ++ s.mem.read (s.pc.toNat + 1))) ∧
    ((fetchWord s).isSome = true ↔ s.pc.toNat ≤ 0xFFE)

/-- 30_encoding.md R93, 60_exceptions.md R212: a fetched word that matches no row stops the cycle with
UNKNOWN_OPCODE, the word and the pc it was fetched from, and only `fault` changes (R213; decision D11,
log 15). -/
def Obligations.UnknownOpcodeStopsCycle : Prop :=
  ∀ (s : State) (w : Word), s.fault = none → fetchWord s = some w → matchingRows w = [] →
    step s = .fault (.raised ⟨.unknownOpcode, some w, s.pc⟩) ∧
      ∀ p, cycle p s = some (s.withFault ⟨.unknownOpcode, some w, s.pc⟩)

/-- 60_exceptions.md R214 (decision D11, log 15): a faulted block has no CYCLE, TICK or KEYS_IN move; CONSTRUCT
leaves any state, and carries the count of drawn bytes on (log 4). That a faulted block has no LOAD move
either is the model's deduction (log 8): R214 says that only CONSTRUCT leaves a faulted state. -/
def Obligations.FaultedBlockOnlyLeavesByConstruct : Prop :=
  (∀ (s : State) (r : FaultRecord), s.fault = some r →
    step s = .fault (.stopped r) ∧ (∀ p, cycle p s = none) ∧ tick s = none ∧
      (∀ k, keysIn k s = none)) ∧
  (∀ (p : Config.Parameters) (h : Session) (m : Transaction), h.state.fault.isSome = true →
    (h.transact p m = .noMove ∨ ∃ u, m = .construct u)) ∧
  (∀ (p : Config.Parameters) (h : Session) (u : ResetValues),
    h.transact p (.construct u) = .done ⟨State.construct u h.state.draws, false, false⟩)

/-- 60_exceptions.md R212, R213 (decision D11, log 15): in any state, the record of a raised fault holds the
fetched word, absent exactly for a fetch fault, and the address the cycle fetched from; the state after
is the state before with only `fault` set. -/
def Obligations.FaultRecordsArePrecise : Prop :=
  ∀ (s : State) (r : FaultRecord), step s = .fault (.raised r) →
    r.pc = s.pc ∧ r.opcode = fetchWord s ∧
      (r.code = .fetchOutOfBounds ↔ fetchWord s = none) ∧ ∀ p, cycle p s = some (s.withFault r)

/-- 60_exceptions.md R210, R211 (decisions D12 to D14, log 7, log 9, log 15): every instruction in every state
completes exactly when its own condition in R210 does not hold (`ownFault`, Safety.lean), and raises exactly
the fault R210 gives it when it does. Apart from that, RET and CALL are stuck with an sp no run reaches. -/
def Obligations.OnlyNamedFaultsAreRaised : Prop :=
  ∀ (i : Instr) (s : State),
    (((i = .ret ∨ ∃ nnn, i = .call nnn) ∧ 16 < s.sp.toNat) →
      exec i s = .fault (.illegalStackPointer s.sp)) ∧
    (¬ ((i = .ret ∨ ∃ nnn, i = .call nnn) ∧ 16 < s.sp.toNat) →
      (ownFault i s = none ↔ ∃ t, exec i s = .next t) ∧
      (∀ c, ownFault i s = some c ↔ exec i s = faultOutcome i c s))

/-- 00_scope.md R10: no word is refused; a step has a next state or a fault, under any parameters. -/
def Obligations.NothingIsRefused : Prop :=
  (∀ (s : State) (r : Refusal), step s ≠ .refused r) ∧
  (∀ (i : Instr) (s : State) (r : Refusal), exec i s ≠ .refused r) ∧
  (∀ (p : Config.Parameters) (s : State) (r : Refusal), stepUnder p s ≠ .refused r)

/-! Control flow. -/

/-- 40_control_flow.md R100: `pc <- zext_16(nnn)`, and nothing else changes. -/
def Obligations.JumpSetsPcToTarget : Prop :=
  ∀ (s : State) (nnn : Addr),
    HasPattern (.jp nnn) 0xF000 0x1000 ∧
    ∃ t, exec (.jp nnn) s = .next t ∧
    t.pc.toNat = nnn.toNat ∧ (nnn = 0xFFF → fetchWord t = none) ∧ Frame [] [] s t

/-- 40_control_flow.md R101: sp = 0 raises STACK_UNDERFLOW with no state change; with sp in 1..16 the top
slot becomes pc, sp counts down and no slot is cleared. -/
def Obligations.ReturnPopsTopSlotIntoPc : Prop :=
  ∀ s : State,
    HasPattern .ret 0xFFFF 0x00EE ∧
    (s.sp.toNat = 0 → exec .ret s = faultOutcome .ret .stackUnderflow s) ∧
    (∀ j : Fin 16, s.sp.toNat = j.val + 1 → ∃ t, exec .ret s = .next t ∧
      t.pc = s.stack.get j ∧ t.sp.toNat = j.val ∧ t.stack = s.stack ∧ Frame [] [.stack] s t)

/-- 40_control_flow.md R102: sp = 16 raises STACK_OVERFLOW with no state change; below 16 the slot sp takes
a + 2, sp counts up, pc takes nnn and no other slot changes. -/
def Obligations.CallPushesReturnAddress : Prop :=
  ∀ (s : State) (nnn : Addr),
    HasPattern (.call nnn) 0xF000 0x2000 ∧
    (s.sp.toNat = 16 → exec (.call nnn) s = faultOutcome (.call nnn) .stackOverflow s) ∧
    (∀ j : Fin 16, s.sp.toNat = j.val → ∃ t, exec (.call nnn) s = .next t ∧
      t.stack.get j = s.pc + 2 ∧ (∀ k : Fin 16, k ≠ j → t.stack.get k = s.stack.get k) ∧
      t.sp.toNat = j.val + 1 ∧ t.pc.toNat = nnn.toNat ∧ Frame [] [.stack] s t)

/-- The model's own choice (log 7): an sp above 16, which 10_state.md R39 calls unreachable, names no slot,
and RET and CALL are stuck there. -/
def Obligations.IllegalStackPointerIsStuck : Prop :=
  ∀ (s : State) (nnn : Addr), 16 < s.sp.toNat →
    exec .ret s = .fault (.illegalStackPointer s.sp) ∧
      exec (.call nnn) s = .fault (.illegalStackPointer s.sp)

/-- 40_control_flow.md R109, 95_test_vectors.md E4: a call and then a return give back the address after
the call and the old sp; nothing but the pushed slot has changed. -/
def Obligations.ReturnUndoesCall : Prop :=
  ∀ (s : State) (nnn : Addr), s.sp.toNat < 16 →
    ∃ t u, exec (.call nnn) s = .next t ∧ exec .ret t = .next u ∧
      u.pc = s.pc + 2 ∧ u.sp = s.sp ∧
      (∀ k : Fin 16, k.val ≠ s.sp.toNat → u.stack.get k = s.stack.get k) ∧ Frame [] [.stack] s u

/-- 40_control_flow.md R103, R104: skip if vx = kk, skip if vx != kk. -/
def Obligations.ImmediateSkipsCompareVxWithKk : Prop :=
  ∀ (s : State) (x : Reg) (kk : Byte),
    (HasPattern (.seImm x kk) 0xF000 0x3000 ∧ ∃ t, exec (.seImm x kk) s = .next t ∧
      t.pc = (if s.reg x = kk then s.pc + 4 else s.pc + 2) ∧ Frame [] [] s t) ∧
    (HasPattern (.sneImm x kk) 0xF000 0x4000 ∧ ∃ t, exec (.sneImm x kk) s = .next t ∧
      t.pc = (if s.reg x ≠ kk then s.pc + 4 else s.pc + 2) ∧ Frame [] [] s t)

/-- 40_control_flow.md R105, R106: skip if vx = vy, skip if vx != vy. -/
def Obligations.RegisterSkipsCompareVxWithVy : Prop :=
  ∀ (s : State) (x y : Reg),
    (HasPattern (.seReg x y) 0xF00F 0x5000 ∧ ∃ t, exec (.seReg x y) s = .next t ∧
      t.pc = (if s.reg x = s.reg y then s.pc + 4 else s.pc + 2) ∧ Frame [] [] s t) ∧
    (HasPattern (.sneReg x y) 0xF00F 0x9000 ∧ ∃ t, exec (.sneReg x y) s = .next t ∧
      t.pc = (if s.reg x ≠ s.reg y then s.pc + 4 else s.pc + 2) ∧ Frame [] [] s t)

/-- 40_control_flow.md R107: the target is nnn + v0, not reduced (the spec's decision D9, log 14). -/
def Obligations.JumpV0AddsWithoutReduction : Prop :=
  ∀ (s : State) (nnn : Addr),
    HasPattern (.jpV0 nnn) 0xF000 0xB000 ∧
    ∃ t, exec (.jpV0 nnn) s = .next t ∧
    t.pc.toNat = nnn.toNat + (s.reg 0).toNat ∧ Frame [] [] s t

/-! Arithmetic and logic. -/

/-- 41_alu.md R120, R121, R122: the loads, and the immediate add that wraps and sets no flag. -/
def Obligations.LoadsAndImmediateAdd : Prop :=
  ∀ (s : State) (x y : Reg) (kk : Byte),
    (HasPattern (.ldImm x kk) 0xF000 0x6000 ∧ ∃ t, exec (.ldImm x kk) s = .next t ∧
      t.reg x = kk ∧ t.pc = s.pc + 2 ∧ Frame [x] [] s t) ∧
    (HasPattern (.addImm x kk) 0xF000 0x7000 ∧ ∃ t, exec (.addImm x kk) s = .next t ∧
      (t.reg x).toNat = ((s.reg x).toNat + kk.toNat) % 256 ∧ t.pc = s.pc + 2 ∧ Frame [x] [] s t) ∧
    (HasPattern (.ldReg x y) 0xF00F 0x8000 ∧ ∃ t, exec (.ldReg x y) s = .next t ∧
      t.reg x = s.reg y ∧ t.pc = s.pc + 2 ∧ Frame [x] [] s t)

/-- 41_alu.md R123, R124, R125: OR, AND and XOR bit by bit, with no flag (VF is among the registers the
frame keeps, unless it is the destination). -/
def Obligations.LogicIsBitwise : Prop :=
  ∀ (s : State) (x y : Reg),
    (HasPattern (.orReg x y) 0xF00F 0x8001 ∧ ∃ t, exec (.orReg x y) s = .next t ∧
      (∀ b, (t.reg x).getLsbD b = ((s.reg x).getLsbD b || (s.reg y).getLsbD b)) ∧
      t.pc = s.pc + 2 ∧ Frame [x] [] s t) ∧
    (HasPattern (.andReg x y) 0xF00F 0x8002 ∧ ∃ t, exec (.andReg x y) s = .next t ∧
      (∀ b, (t.reg x).getLsbD b = ((s.reg x).getLsbD b && (s.reg y).getLsbD b)) ∧
      t.pc = s.pc + 2 ∧ Frame [x] [] s t) ∧
    (HasPattern (.xorReg x y) 0xF00F 0x8003 ∧ ∃ t, exec (.xorReg x y) s = .next t ∧
      (∀ b, (t.reg x).getLsbD b = ((s.reg x).getLsbD b ^^ (s.reg y).getLsbD b)) ∧
      t.pc = s.pc + 2 ∧ Frame [x] [] s t)

/-- 41_alu.md R126: the sum mod 256, and VF = carry, which VF holds even when x = 0xF. -/
def Obligations.AddReportsCarry : Prop :=
  ∀ (s : State) (x y : Reg),
    HasPattern (.addReg x y) 0xF00F 0x8004 ∧
    ∃ t, exec (.addReg x y) s = .next t ∧
    (x ≠ regVF → (t.reg x).toNat = ((s.reg x).toNat + (s.reg y).toNat) % 256) ∧
    t.reg regVF = (if (s.reg x).toNat + (s.reg y).toNat > 255 then 1 else 0) ∧
    t.pc = s.pc + 2 ∧ Frame [x, regVF] [] s t

/-- 41_alu.md R127, R129: vx - vy and vy - vx mod 256, and VF = 1 iff there is no borrow, equality
included; VF holds the flag even when x = 0xF. -/
def Obligations.SubtractionsReportNoBorrow : Prop :=
  ∀ (s : State) (x y : Reg),
    (HasPattern (.subReg x y) 0xF00F 0x8005 ∧ ∃ t, exec (.subReg x y) s = .next t ∧
      (x ≠ regVF → (t.reg x).toNat = ((s.reg x).toNat + 256 - (s.reg y).toNat) % 256) ∧
      t.reg regVF = (if (s.reg x).toNat ≥ (s.reg y).toNat then 1 else 0) ∧
      t.pc = s.pc + 2 ∧ Frame [x, regVF] [] s t) ∧
    (HasPattern (.subnReg x y) 0xF00F 0x8007 ∧ ∃ t, exec (.subnReg x y) s = .next t ∧
      (x ≠ regVF → (t.reg x).toNat = ((s.reg y).toNat + 256 - (s.reg x).toNat) % 256) ∧
      t.reg regVF = (if (s.reg y).toNat ≥ (s.reg x).toNat then 1 else 0) ∧
      t.pc = s.pc + 2 ∧ Frame [x, regVF] [] s t)

/-- 41_alu.md R128, R130, under SHIFT_SOURCE = `Vx`, the spec's default (D25, log 5): the shifts of Vx by
one, whatever y is, and VF = the bit shifted out, even when x = 0xF (C1). -/
def Obligations.ShiftsMoveVxByOneBit : Prop :=
  ∀ (s : State) (x y : Reg),
    (HasPattern (.shr x y) 0xF00F 0x8006 ∧ ∃ t, exec (.shr x y) s = .next t ∧
      (x ≠ regVF → (t.reg x).toNat = (s.reg x).toNat / 2) ∧
      (t.reg regVF).toNat = (s.reg x).toNat % 2 ∧
      t.pc = s.pc + 2 ∧ Frame [x, regVF] [] s t) ∧
    (HasPattern (.shl x y) 0xF00F 0x800E ∧ ∃ t, exec (.shl x y) s = .next t ∧
      (x ≠ regVF → (t.reg x).toNat = (s.reg x).toNat * 2 % 256) ∧
      (t.reg regVF).toNat = (s.reg x).toNat / 128 ∧
      t.pc = s.pc + 2 ∧ Frame [x, regVF] [] s t)

/-- 41_alu.md R134: the shifts under either value of the parameter SHIFT_SOURCE: the source is vx or vy, and the
result goes to Vx (log 5). -/
def Obligations.ShiftsFollowShiftSource : Prop :=
  ∀ (p : Config.Parameters) (s : State) (x y : Reg) (b : Byte),
    b = (match p.shiftSource with | .vx => s.reg x | .vy => s.reg y) →
    (∃ t, execUnder p (.shr x y) s = .next t ∧
      (x ≠ regVF → (t.reg x).toNat = b.toNat / 2) ∧ (t.reg regVF).toNat = b.toNat % 2 ∧
      t.pc = s.pc + 2 ∧ Frame [x, regVF] [] s t) ∧
    (∃ t, execUnder p (.shl x y) s = .next t ∧
      (x ≠ regVF → (t.reg x).toNat = b.toNat * 2 % 256) ∧ (t.reg regVF).toNat = b.toNat / 128 ∧
      t.pc = s.pc + 2 ∧ Frame [x, regVF] [] s t)

/-- 41_alu.md R133, 10_state.md R32: after any of the six flag writers VF is 0 or 1, x = 0xF included; and
an instruction that is none of them and whose x field is not 0xF leaves VF alone. -/
def Obligations.FlagWritersLeaveZeroOrOne : Prop :=
  (∀ (i : Instr) (s t : State), exec i s = .next t →
    ((∃ x y, i = .addReg x y ∨ i = .subReg x y ∨ i = .subnReg x y ∨ i = .shr x y ∨ i = .shl x y) ∨
      ∃ x y n, i = .drw x y n) →
    t.reg regVF = 0 ∨ t.reg regVF = 1) ∧
  (∀ (i : Instr) (s t : State), exec i s = .next t → t.reg regVF ≠ s.reg regVF →
    ((∃ x y, i = .addReg x y ∨ i = .subReg x y ∨ i = .subnReg x y ∨ i = .shr x y ∨ i = .shl x y) ∨
      (∃ x y n, i = .drw x y n) ∨ i.fieldValues.x = 15))

/-- 41_alu.md R131: `V[x] <- r & kk` for the drawn byte r, which is a free value (R139, log 4): the
statement holds whatever byte is drawn. kk = 0 gives 0, kk = 0xFF gives the draw itself. The second clause
says the same of every input of the environment on RAND_IN. -/
def Obligations.RandomByteIsMasked : Prop :=
  ∀ (s : State) (x : Reg) (kk : Byte),
    HasPattern (.rnd x kk) 0xF000 0xC000 ∧
    (∃ t, exec (.rnd x kk) s = .next t ∧
      t.reg x = (Config.randIn s.draws &&& kk) ∧ t.draws = s.draws + 1 ∧
      (kk = 0x00 → t.reg x = 0) ∧ (kk = 0xFF → t.reg x = Config.randIn s.draws) ∧
      t.pc = s.pc + 2 ∧ Frame [x] [.draws] s t) ∧
    (∀ p : Config.Parameters, ∃ t, execUnder p (.rnd x kk) s = .next t ∧
      t.reg x = (p.randIn s.draws &&& kk) ∧ t.draws = s.draws + 1 ∧
      t.pc = s.pc + 2 ∧ Frame [x] [.draws] s t)

/-! Index register and memory. -/

/-- 42_index_memory.md R150, R152: `I <- zext_16(nnn)` and `I <- vx * 5`, vx not masked. -/
def Obligations.IndexLoadsAddressOrGlyph : Prop :=
  ∀ (s : State) (nnn : Addr) (x : Reg),
    (HasPattern (.ldI nnn) 0xF000 0xA000 ∧ ∃ t, exec (.ldI nnn) s = .next t ∧
      t.I.toNat = nnn.toNat ∧ t.pc = s.pc + 2 ∧ Frame [] [.index] s t) ∧
    (HasPattern (.ldFVx x) 0xF0FF 0xF029 ∧ ∃ t, exec (.ldFVx x) s = .next t ∧
      t.I.toNat = (s.reg x).toNat * 5 ∧ t.pc = s.pc + 2 ∧ Frame [] [.index] s t)

/-- 42_index_memory.md R151: `I <- (i0 + vx) mod 65536`, VF unchanged (the wrap is the spec's decision D17,
log 11). -/
def Obligations.IndexAddWrapsAtSixteenBits : Prop :=
  ∀ (s : State) (x : Reg),
    HasPattern (.addIVx x) 0xF0FF 0xF01E ∧
    ∃ t, exec (.addIVx x) s = .next t ∧
    t.I.toNat = (s.I.toNat + (s.reg x).toNat) % 65536 ∧ t.pc = s.pc + 2 ∧ Frame [] [.index] s t

/-- 42_index_memory.md R153: the three decimal digits go to mem[I], mem[I+1], mem[I+2] and no other byte
changes; I + 2 >= 4096 raises MEM_WRITE_OUT_OF_BOUNDS with no byte written. -/
def Obligations.DecimalStoreWritesThreeDigits : Prop :=
  ∀ (s : State) (x : Reg),
    HasPattern (.ldBVx x) 0xF0FF 0xF033 ∧
    (4096 ≤ s.I.toNat + 2 → exec (.ldBVx x) s = faultOutcome (.ldBVx x) .memWriteOutOfBounds s) ∧
    (s.I.toNat + 2 < 4096 → ∃ t, exec (.ldBVx x) s = .next t ∧
      (t.mem.read s.I.toNat).toNat = (s.reg x).toNat / 100 ∧
      (t.mem.read (s.I.toNat + 1)).toNat = (s.reg x).toNat / 10 % 10 ∧
      (t.mem.read (s.I.toNat + 2)).toNat = (s.reg x).toNat % 10 ∧
      (∀ a, (a < s.I.toNat ∨ s.I.toNat + 3 ≤ a) → t.mem.read a = s.mem.read a) ∧
      t.pc = s.pc + 2 ∧ Frame [] [.memory] s t)

/-- 42_index_memory.md R154: V0 to Vx go to mem[I] to mem[I+x] and no other byte changes; I is unchanged (the
spec's decision D16, log 12); I + x >= 4096 raises MEM_WRITE_OUT_OF_BOUNDS with no byte written. -/
def Obligations.StoreRegistersWritesV0ToVx : Prop :=
  ∀ (s : State) (x : Reg),
    HasPattern (.storeRegs x) 0xF0FF 0xF055 ∧
    (4096 ≤ s.I.toNat + x.val →
      exec (.storeRegs x) s = faultOutcome (.storeRegs x) .memWriteOutOfBounds s) ∧
    (s.I.toNat + x.val < 4096 → ∃ t, exec (.storeRegs x) s = .next t ∧
      (∀ k : Reg, k ≤ x → t.mem.read (s.I.toNat + k.val) = s.reg k) ∧
      (∀ a, (a < s.I.toNat ∨ s.I.toNat + x.val < a) → t.mem.read a = s.mem.read a) ∧
      t.pc = s.pc + 2 ∧ Frame [] [.memory] s t)

/-- 42_index_memory.md R155: mem[I] to mem[I+x] go to V0 to Vx; I is unchanged (the spec's decision D16,
log 12); I + x >= 4096 raises MEM_READ_OUT_OF_BOUNDS (C2) with no register written. -/
def Obligations.LoadRegistersReadsV0ToVx : Prop :=
  ∀ (s : State) (x : Reg),
    HasPattern (.loadRegs x) 0xF0FF 0xF065 ∧
    (4096 ≤ s.I.toNat + x.val →
      exec (.loadRegs x) s = faultOutcome (.loadRegs x) .memReadOutOfBounds s) ∧
    (s.I.toNat + x.val < 4096 → ∃ t, exec (.loadRegs x) s = .next t ∧
      (∀ k : Reg, k ≤ x → t.reg k = s.mem.read (s.I.toNat + k.val)) ∧
      (∀ k : Reg, x < k → t.reg k = s.reg k) ∧
      t.pc = s.pc + 2 ∧ Frame (regsUpTo x) [] s t)

/-- 42_index_memory.md R154, R155: what Fx55 stored, Fx65 loads back, whatever has happened to the registers
in between. -/
def Obligations.LoadRegistersUndoesStore : Prop :=
  ∀ (s t u : State) (x : Reg), exec (.storeRegs x) s = .next t → u.mem = t.mem → u.I = t.I →
    ∃ v, exec (.loadRegs x) u = .next v ∧ ∀ k : Reg, k ≤ x → v.reg k = s.reg k

/-- 20_memory.md R74 (the spec's decision D31, log 17), 70_reset_and_hazards.md R260: a store by Fx33 or Fx55
into code is what the next fetch of that address gives. In any state with the memory the store left (the state
right after it is one) and a fetchable pc, the opcode is made of the stored bytes where the store reached, be
it both bytes, one of them or none, and of the old bytes elsewhere. -/
def Obligations.StoredCodeIsFetchedNext : Prop :=
  ∀ (s t u : State) (x : Reg), u.mem = t.mem → u.pc.toNat + 1 < 4096 →
    (exec (.storeRegs x) s = .next t → fetchWord u =
      some (wordOfBytes (byteAfterStore s (regBytes s x) u.pc.toNat)
        (byteAfterStore s (regBytes s x) (u.pc.toNat + 1)))) ∧
    (exec (.ldBVx x) s = .next t → fetchWord u =
      some (wordOfBytes (byteAfterStore s (decimalDigits (s.reg x)) u.pc.toNat)
        (byteAfterStore s (decimalDigits (s.reg x)) (u.pc.toNat + 1))))

/-! Graphics. -/

/-- 43_graphics.md R170: every pixel off; no register and no memory byte changes; doing it twice is doing it
once. -/
def Obligations.ClearTurnsEveryPixelOff : Prop :=
  ∀ s : State,
    HasPattern .cls 0xFFFF 0x00E0 ∧
    ∃ t, exec .cls s = .next t ∧ (∀ y x, t.fb.pixel y x = false) ∧
    t.pc = s.pc + 2 ∧ Frame [] [.frame] s t ∧
    ∃ u, exec .cls t = .next u ∧ u.fb = t.fb

/-- 43_graphics.md R171 to R174 (the spec's decisions D18 to D21, log 13): with the sprite readable, every
pixel is toggled exactly where the sprite, wrapped around both edges, has a 1-bit, the coordinates being
the old Vx and Vy; VF = 1 iff some pixel went from on to off; n = 0 draws nothing and leaves VF = 0. -/
def Obligations.DrawTogglesSpritePixels : Prop :=
  ∀ (s : State) (x y : Reg) (n : Nibble), SpriteReadable s n →
    HasPattern (.drw x y n) 0xF000 0xD000 ∧
    ∃ t, exec (.drw x y n) s = .next t ∧
      (∀ py px, t.fb.pixel py px = (s.fb.pixel py px ^^ drawnAt s (s.reg x) (s.reg y) n py px)) ∧
      ((∃ py px, s.fb.pixel py px = true ∧ t.fb.pixel py px = false) → t.reg regVF = 1) ∧
      ((¬ ∃ py px, s.fb.pixel py px = true ∧ t.fb.pixel py px = false) → t.reg regVF = 0) ∧
      t.pc = s.pc + 2 ∧ Frame [regVF] [.frame] s t

/-- 43_graphics.md R171: n > 0 and I + n - 1 >= 4096 raises MEM_READ_OUT_OF_BOUNDS, and the state after the
cycle differs from the one before in `fault` alone. -/
def Obligations.DrawBeyondMemoryFaults : Prop :=
  ∀ (s : State) (x y : Reg) (n : Nibble), 0 < n.toNat → 4096 ≤ s.I.toNat + n.toNat - 1 →
    exec (.drw x y n) s = faultOutcome (.drw x y n) .memReadOutOfBounds s

/-- 95_test_vectors.md E6 (43_graphics.md R171, R174): drawing the same sprite twice at the same place
restores the framebuffer. Onto a blank area the first draw leaves VF = 0, and the second VF = 1 exactly if
the sprite has a 1-bit. The coordinates are in registers other than VF, which the first draw writes. -/
def Obligations.DrawingTwiceRestoresFramebuffer : Prop :=
  ∀ (s t u : State) (x y : Reg) (n : Nibble), x ≠ regVF → y ≠ regVF →
    exec (.drw x y n) s = .next t → exec (.drw x y n) t = .next u →
    u.fb = s.fb ∧
    ((∀ py px, drawnAt s (s.reg x) (s.reg y) n py px = true → s.fb.pixel py px = false) →
      t.reg regVF = 0 ∧
      (u.reg regVF = 1 ↔ ∃ py px, drawnAt s (s.reg x) (s.reg y) n py px = true))

/-! Keypad and timers. -/

/-- 44_keys_timers.md R190, R191, R197: skip on the state of key Vx; a Vx of 16 or more raises
KEY_INDEX_OUT_OF_RANGE (the spec's decision D14, log 9). -/
def Obligations.KeySkipsReadKeyVx : Prop :=
  ∀ (s : State) (x : Reg),
    HasPattern (.skp x) 0xF0FF 0xE09E ∧ HasPattern (.sknp x) 0xF0FF 0xE0A1 ∧
    (∀ k : Reg, (s.reg x).toNat = k.val →
      (∃ t, exec (.skp x) s = .next t ∧
        t.pc = (if s.key k = true then s.pc + 4 else s.pc + 2) ∧ Frame [] [] s t) ∧
      (∃ t, exec (.sknp x) s = .next t ∧
        t.pc = (if s.key k = false then s.pc + 4 else s.pc + 2) ∧ Frame [] [] s t)) ∧
    (16 ≤ (s.reg x).toNat →
      exec (.skp x) s = faultOutcome (.skp x) .keyIndexOutOfRange s ∧
      exec (.sknp x) s = faultOutcome (.sknp x) .keyIndexOutOfRange s)

/-- 44_keys_timers.md R193, R194: with no key pressed the cycle at an Fx0A completes and changes nothing at
all, under any parameters; TICK and KEYS_IN remain moves of the host. -/
def Obligations.KeyWaitRetriesUnchanged : Prop :=
  (∀ (s : State) (x : Reg), (∀ k, s.key k = false) →
    exec (.ldVxK x) s = .next s ∧ ∀ p, execUnder p (.ldVxK x) s = .next s) ∧
  (∀ s : State, s.WaitsForKey →
    (∀ p, cycle p s = some s) ∧ (tick s).isSome = true ∧ ∀ k, keysIn k s = some (s.setKeys k))

/-- 44_keys_timers.md R193 under the spec's default of KEYWAIT_PICK (D15, log 6): with some key pressed, Vx
takes the number of the lowest pressed key. -/
def Obligations.KeyWaitTakesLowestPressedKey : Prop :=
  ∀ (s : State) (x k : Reg), s.key k = true → (∀ j, j < k → s.key j = false) →
    HasPattern (.ldVxK x) 0xF0FF 0xF00A ∧
    ∃ t, exec (.ldVxK x) s = .next t ∧ (t.reg x).toNat = k.val ∧
      t.pc = s.pc + 2 ∧ Frame [x] [] s t

/-- 44_keys_timers.md R193: under any value of the parameter KEYWAIT_PICK, a function that picks one of the
pressed keys, Fx0A takes the number of a pressed key (the conservative reading of D15, log 6), and of no other
than the one picked. -/
def Obligations.KeyWaitUnderAnyPickTakesPressedKey : Prop :=
  ∀ (p : Config.Parameters) (s : State) (x : Reg), p.Legal → (∃ k, s.key k = true) →
    ∃ (t : State) (k : Reg), execUnder p (.ldVxK x) s = .next t ∧ s.key k = true ∧
      (∃ j js, pressedKeys s = j :: js ∧ k = p.keywaitPick j js) ∧
      (t.reg x).toNat = k.val ∧ t.pc = s.pc + 2 ∧ Frame [x] [] s t

/-- 44_keys_timers.md R192, R195, R196: `V[x] <- DT`, `DT <- vx`, `ST <- vx`. -/
def Obligations.TimerInstructionsMoveTimers : Prop :=
  ∀ (s : State) (x : Reg),
    (HasPattern (.ldVxDT x) 0xF0FF 0xF007 ∧ ∃ t, exec (.ldVxDT x) s = .next t ∧
      t.reg x = s.DT ∧ t.pc = s.pc + 2 ∧ Frame [x] [] s t) ∧
    (HasPattern (.ldDTVx x) 0xF0FF 0xF015 ∧ ∃ t, exec (.ldDTVx x) s = .next t ∧
      t.DT = s.reg x ∧ t.pc = s.pc + 2 ∧ Frame [] [.delay] s t) ∧
    (HasPattern (.ldSTVx x) 0xF0FF 0xF018 ∧ ∃ t, exec (.ldSTVx x) s = .next t ∧
      t.ST = s.reg x ∧ (t.soundOn = true ↔ s.reg x ≠ 0) ∧ t.pc = s.pc + 2 ∧ Frame [] [.sound] s t)

/-- 60_exceptions.md R230: TICK decrements each nonzero timer by exactly 1, leaves a zero one at 0, and reads
and writes nothing else; a faulted block takes no step. -/
def Obligations.TickDecrementsNonzeroTimers : Prop :=
  ∀ s : State,
    (s.fault.isSome = true → tick s = none) ∧
    (s.fault = none → ∃ t, tick s = some t ∧
      t.DT.toNat = s.DT.toNat - 1 ∧ t.ST.toNat = s.ST.toNat - 1 ∧
      t.pc = s.pc ∧ Frame [] [.delay, .sound] s t)

/-- 10_state.md R45, 60_exceptions.md R238: KEYS_IN overwrites all 16 key states at once and nothing else. -/
def Obligations.KeysInOverwritesAllKeys : Prop :=
  ∀ (s : State) (k : Vector Bool 16), s.fault = none →
    ∃ t, keysIn k s = some t ∧ (∀ j, t.key j = k.get j) ∧ { t with keys := s.keys } = s

/-! The whole machine. -/

/-- 10_state.md R35, R39, R41, R42, 41_alu.md R139: over all instructions, I is written only by Annn, Fx1E and
Fx29, the stack and sp only by 2nnn and 00EE, DT only by Fx15, ST only by Fx18, and only Cxkk draws; no
instruction writes the keys (R45) or `fault`. -/
def Obligations.SpecialRegistersHaveOnlyTheirWriters : Prop :=
  ∀ (i : Instr) (s t : State), exec i s = .next t →
    (t.I ≠ s.I → ∃ nnn x, i = .ldI nnn ∨ i = .addIVx x ∨ i = .ldFVx x) ∧
    ((t.sp ≠ s.sp ∨ t.stack ≠ s.stack) → i = .ret ∨ ∃ nnn, i = .call nnn) ∧
    (t.DT ≠ s.DT → ∃ x, i = .ldDTVx x) ∧
    (t.ST ≠ s.ST → ∃ x, i = .ldSTVx x) ∧
    (t.draws ≠ s.draws → ∃ x kk, i = .rnd x kk) ∧
    t.keys = s.keys ∧ t.fault = s.fault

/-- 20_memory.md R64, 10_state.md R44: over all instructions, a byte of memory changes only under Fx33 and
Fx55 and only in their range from I, and a pixel changes only under 00E0 and Dxyn. -/
def Obligations.MemoryAndFramebufferHaveOnlyTheirWriters : Prop :=
  ∀ (i : Instr) (s t : State), exec i s = .next t →
    (∀ a, t.mem.read a ≠ s.mem.read a →
      (∃ x, i = .ldBVx x ∧ s.I.toNat ≤ a ∧ a ≤ s.I.toNat + 2) ∨
      (∃ x : Reg, i = .storeRegs x ∧ s.I.toNat ≤ a ∧ a ≤ s.I.toNat + x.val)) ∧
    (t.fb ≠ s.fb → i = .cls ∨ ∃ x y n, i = .drw x y n)

/-- 10_state.md R36: over all instructions, pc ends at a + 2, at a + 4 only under a skip, at a only under Fx0A
with no key pressed, or at a target that 1nnn, 2nnn, Bnnn or 00EE writes. -/
def Obligations.PcAfterACompletedCycle : Prop :=
  ∀ (i : Instr) (s t : State), exec i s = .next t →
    t.pc = s.pc + 2 ∨
    (t.pc = s.pc + 4 ∧ ((∃ x kk, i = .seImm x kk ∨ i = .sneImm x kk) ∨
      (∃ x y, i = .seReg x y ∨ i = .sneReg x y) ∨ ∃ x, i = .skp x ∨ i = .sknp x)) ∨
    (t.pc = s.pc ∧ (∃ x, i = .ldVxK x) ∧ ∀ k, s.key k = false) ∨
    (∃ nnn : Addr, t.pc.toNat = nnn.toNat ∧ (i = .jp nnn ∨ i = .call nnn)) ∨
    (∃ nnn : Addr, t.pc.toNat = nnn.toNat + (s.reg 0).toNat ∧ i = .jpV0 nnn) ∨
    (i = .ret ∧ ∃ j : Fin 16, s.sp.toNat = j.val + 1 ∧ t.pc = s.stack.get j)

/-- 10_state.md R41, R42, R43: a program sees DT only through Fx07 and never sees ST. Changing DT before an
instruction other than Fx07, or ST before any instruction, changes nothing in its outcome but that timer,
unless the instruction itself sets it. For Cxkk both executions have one and the same byte on RAND_IN, since
both states have the same `draws` (log 4): nothing is said of two runs with bytes of their own. -/
def Obligations.TimersAreSeenOnlyThroughFx07 : Prop :=
  (∀ (i : Instr) (s : State) (d : Byte), (∀ x, i ≠ .ldVxDT x) →
    (∀ t, exec i s = .next t → exec i (s.setDT d) = .next (t.setDT d) ∨
      (exec i (s.setDT d) = .next t ∧ ∃ x, i = .ldDTVx x)) ∧
    (∀ f, exec i s = .fault f → exec i (s.setDT d) = .fault f)) ∧
  (∀ (i : Instr) (s : State) (d : Byte),
    (∀ t, exec i s = .next t → exec i (s.setST d) = .next (t.setST d) ∨
      (exec i (s.setST d) = .next t ∧ ∃ x, i = .ldSTVx x)) ∧
    (∀ f, exec i s = .fault f → exec i (s.setST d) = .fault f))

/-- 10_state.md R51, 20_memory.md R60: every step from a state that meets the invariants (sp at most 16,
return addresses and pc in their ranges, memory in its canonical form) leads to one that meets them, under
any parameters. -/
def Obligations.StepKeepsInvariants : Prop :=
  (∀ s t : State, s.Inv → step s = .next t → t.Inv) ∧
  (∀ (p : Config.Parameters) (s t : State), s.Inv → stepUnder p s = .next t → t.Inv)

/-- 10_state.md R51, 70_reset_and_hazards.md R251: the reset state, and whatever values CONSTRUCT draws for
what the source leaves open, meet the invariants. -/
def Obligations.ConstructMeetsInvariants : Prop :=
  State.reset.Inv ∧ ∀ (u : ResetValues) (drawn : Nat), (State.construct u drawn).Inv

/-- 00_scope.md R6, 10_state.md R51, R39: under any parameters and in every order of the host's transactions
the invariants hold, so no run reaches an sp above 16 and the model is never stuck on one. The count of drawn
bytes never falls, over a CONSTRUCT either (the count is the model's own, log 4; that a Cxkk advances it by
one is in `RandomByteIsMasked`). -/
def Obligations.HostRunsKeepInvariants : Prop :=
  ∀ (p : Config.Parameters) (ms : List Transaction) (h h' : Session),
    h.state.Inv → Session.run p ms h = some h' →
    h'.state.Inv ∧ (∀ b, stepUnder p h'.state ≠ .fault (.illegalStackPointer b)) ∧
      h.state.draws ≤ h'.state.draws

/-! Reset, load and the outputs. -/

/-- 70_reset_and_hazards.md R251, R252: what CONSTRUCT leaves whatever the open values are. By the source's own
words: pc = 0x200, a blank framebuffer, the font from 0x000; the first CYCLE fetches from 0x200 and 0x201. By
the spec's decisions: sp = 0 (10_state.md R39, D4: the source says only '0 = empty') and no fault (D11,
log 15). -/
def Obligations.ConstructLeavesSourcedValues : Prop :=
  ∀ (u : ResetValues) (drawn : Nat),
    let s := State.construct u drawn
    s.pc = 0x200 ∧ s.sp = 0 ∧ (∀ y x, s.fb.pixel y x = false) ∧ s.fault = none ∧
    (∀ k : Fin 80, s.mem.read k.val = u.font.get k) ∧
    (∀ k : Fin 4016, s.mem.read (0x50 + k.val) = u.ram.get k) ∧
    fetchWord s = some (wordOfBytes (s.mem.read 0x200) (s.mem.read 0x201))

/-- The values the spec decided and the source does not state (D1 to D7; 70_reset_and_hazards.md R251; logs 1,
2 and 3): under the defaults, `State.reset` is what CONSTRUCT leaves before any draw, its registers, timers,
slots and keys are zero, memory from 0x050 is zero, and the 80 bytes below are the 16 glyphs of 10_state.md
R50. -/
def Obligations.ResetTakesDecidedDefaults : Prop :=
  State.construct ResetValues.zero 0 = State.reset ∧
  (∀ k, State.reset.reg k = 0) ∧ State.reset.I = 0 ∧ (∀ j : Fin 16, State.reset.stack.get j = 0) ∧
  State.reset.DT = 0 ∧ State.reset.ST = 0 ∧ (∀ k, State.reset.key k = false) ∧
  (∀ a, 0x50 ≤ a → State.reset.mem.read a = 0) ∧
  State.reset.mem.readBytes 0x000 5 = [0xF0, 0x90, 0x90, 0x90, 0xF0] ∧
  State.reset.mem.readBytes 0x005 5 = [0x20, 0x60, 0x20, 0x20, 0x70] ∧
  State.reset.mem.readBytes 0x00A 5 = [0xF0, 0x10, 0xF0, 0x80, 0xF0] ∧
  State.reset.mem.readBytes 0x00F 5 = [0xF0, 0x10, 0xF0, 0x10, 0xF0] ∧
  State.reset.mem.readBytes 0x014 5 = [0x90, 0x90, 0xF0, 0x10, 0x10] ∧
  State.reset.mem.readBytes 0x019 5 = [0xF0, 0x80, 0xF0, 0x10, 0xF0] ∧
  State.reset.mem.readBytes 0x01E 5 = [0xF0, 0x80, 0xF0, 0x90, 0xF0] ∧
  State.reset.mem.readBytes 0x023 5 = [0xF0, 0x10, 0x20, 0x40, 0x40] ∧
  State.reset.mem.readBytes 0x028 5 = [0xF0, 0x90, 0xF0, 0x90, 0xF0] ∧
  State.reset.mem.readBytes 0x02D 5 = [0xF0, 0x90, 0xF0, 0x10, 0xF0] ∧
  State.reset.mem.readBytes 0x032 5 = [0xF0, 0x90, 0xF0, 0x90, 0x90] ∧
  State.reset.mem.readBytes 0x037 5 = [0xE0, 0x90, 0xE0, 0x90, 0xE0] ∧
  State.reset.mem.readBytes 0x03C 5 = [0xF0, 0x80, 0x80, 0x80, 0xF0] ∧
  State.reset.mem.readBytes 0x041 5 = [0xE0, 0x90, 0x90, 0x90, 0xE0] ∧
  State.reset.mem.readBytes 0x046 5 = [0xF0, 0x80, 0xF0, 0x80, 0xF0] ∧
  State.reset.mem.readBytes 0x04B 5 = [0xF0, 0x80, 0xF0, 0x80, 0x80]

/-- 70_reset_and_hazards.md R254: an image of at most 3584 bytes is copied to memory from 0x200, no other byte
and no register changes; a longer one is refused whole, and the block is unchanged. -/
def Obligations.LoadCopiesImageOrFailsWhole : Prop :=
  ∀ (s : State) (bytes : List Byte),
    (bytes.length ≤ 3584 → ∃ t, load bytes s = some t ∧
      (∀ k b, bytes[k]? = some b → t.mem.read (0x200 + k) = b) ∧
      (∀ a, (a < 0x200 ∨ 0x200 + bytes.length ≤ a) → t.mem.read a = s.mem.read a) ∧
      t.pc = s.pc ∧ Frame [] [.memory] s t) ∧
    (3584 < bytes.length → load bytes s = none ∧
      (s.fault = none → ∀ p, Session.transact p (.load bytes) ⟨s, false, false⟩ =
        .loadFailed ⟨s, false, false⟩))

/-- 70_reset_and_hazards.md R256, R257 (the spec's decision D30; log 8): LOAD is a move at most once and only
until the first CYCLE. It is a move on a block that has had neither; a LOAD that has copied its image marks
the session as loaded and a CYCLE marks it as started; no transaction but CONSTRUCT takes a mark away; and a
session with either mark has no LOAD move. -/
def Obligations.LoadOnlyBeforeFirstCycle : Prop :=
  ∀ p : Config.Parameters,
    (∀ (s : State) (bytes : List Byte), s.fault = none → bytes.length ≤ 3584 →
      ∃ t, Session.transact p (.load bytes) ⟨s, false, false⟩ = .done ⟨t, true, false⟩) ∧
    (∀ (h : Session) (bytes : List Byte), h.loaded = true ∨ h.started = true →
      h.transact p (.load bytes) = .noMove) ∧
    (∀ (h t : Session) (bytes : List Byte), h.transact p (.load bytes) = .done t → t.loaded = true) ∧
    (∀ h t : Session, h.transact p .cycle = .done t → t.started = true) ∧
    (∀ (h t : Session) (m : Transaction), (h.transact p m = .done t ∨ h.transact p m = .loadFailed t) →
      (∃ u, m = .construct u) ∨
      ((h.loaded = true → t.loaded = true) ∧ (h.started = true → t.started = true)))

/-- 60_exceptions.md R236, R237, R212, 10_state.md R44: FB_OUT lists the 2048 pixels row by row, pixel (x, y)
at y * 64 + x; SOUND_ON is ST != 0; FAULT is the record of the last fault. -/
def Obligations.OutputsShowTheState : Prop :=
  ∀ s : State,
    s.fbOut.length = 2048 ∧
    (∀ (y : Fin 32) (x : Fin 64), s.fbOut[y.val * 64 + x.val]? = some (s.fb.pixel y x)) ∧
    (s.soundOn = true ↔ s.ST.toNat ≠ 0) ∧ s.faultOut = s.fault

/-- 70_reset_and_hazards.md R262 (the spec's decision D34, log 16): at a self-jump a step leads back to
exactly the same state, so nothing the block does moves it on. -/
def Obligations.SelfJumpIsAFixedPoint : Prop :=
  ∀ s : State, s.EndsInSuccess → step s = .next s ∧ ∀ p, cycle p s = some s
end

