-- ==== Sys2Proof/Laws/Decode.lean ====
section
/-! SUPPORT. The fields of a word put together from fields (spec/30_encoding.md R81, R97), a word as its
fields, and what selecting a row of the opcode table says of the fields (R91). -/

namespace Sys2Proof

/-! The bits of the three layouts. -/

theorem getLsbD_wordNNN (op : Nibble) (nnn : Addr) (i : Nat) :
    (wordNNN op nnn).getLsbD i = if i < 12 then nnn.getLsbD i else op.getLsbD (i - 12) := by
  unfold wordNNN
  exact BitVec.getLsbD_append

theorem getLsbD_wordXKK (op : Nibble) (x : Reg) (kk : Byte) (i : Nat) :
    (wordXKK op x kk).getLsbD i =
      if i < 8 then kk.getLsbD i
      else if i < 12 then (BitVec.ofFin (w := 4) x).getLsbD (i - 8) else op.getLsbD (i - 12) := by
  unfold wordXKK
  refine BitVec.getLsbD_append.trans ?_
  rw [BitVec.getLsbD_append]
  simp only [Nat.sub_sub]
  split_ifs <;> first | rfl | omega

theorem getLsbD_wordXYN (op : Nibble) (x y : Reg) (n : Nibble) (i : Nat) :
    (wordXYN op x y n).getLsbD i =
      if i < 4 then n.getLsbD i
      else if i < 8 then (BitVec.ofFin (w := 4) y).getLsbD (i - 4)
      else if i < 12 then (BitVec.ofFin (w := 4) x).getLsbD (i - 8) else op.getLsbD (i - 12) := by
  unfold wordXYN
  refine BitVec.getLsbD_append.trans ?_
  refine (if_congr Iff.rfl rfl BitVec.getLsbD_append).trans ?_
  rw [BitVec.getLsbD_append]
  simp only [Nat.sub_sub]
  split_ifs <;> first | rfl | omega

/-! The fields of the three layouts. -/

@[simp] theorem opField_wordXYN (op : Nibble) (x y : Reg) (n : Nibble) :
    opField (wordXYN op x y n) = op := by
  apply BitVec.eq_of_getLsbD_eq
  intro i hi
  rw [opField, BitVec.getLsbD_extractLsb', getLsbD_wordXYN]
  simp only [hi, decide_true, Bool.true_and]
  split_ifs <;> first | omega | (congr 1; omega)

@[simp] theorem xField_wordXYN (op : Nibble) (x y : Reg) (n : Nibble) :
    xField (wordXYN op x y n) = x := by
  have h : (wordXYN op x y n).extractLsb' 8 4 = BitVec.ofFin (w := 4) x := by
    apply BitVec.eq_of_getLsbD_eq
    intro i hi
    rw [BitVec.getLsbD_extractLsb', getLsbD_wordXYN]
    simp only [hi, decide_true, Bool.true_and]
    split_ifs <;> first | omega | (congr 1; omega)
  exact congrArg BitVec.toFin h

@[simp] theorem yField_wordXYN (op : Nibble) (x y : Reg) (n : Nibble) :
    yField (wordXYN op x y n) = y := by
  have h : (wordXYN op x y n).extractLsb' 4 4 = BitVec.ofFin (w := 4) y := by
    apply BitVec.eq_of_getLsbD_eq
    intro i hi
    rw [BitVec.getLsbD_extractLsb', getLsbD_wordXYN]
    simp only [hi, decide_true, Bool.true_and]
    split_ifs <;> first | omega | (congr 1; omega)
  exact congrArg BitVec.toFin h

@[simp] theorem nField_wordXYN (op : Nibble) (x y : Reg) (n : Nibble) :
    nField (wordXYN op x y n) = n := by
  apply BitVec.eq_of_getLsbD_eq
  intro i hi
  rw [nField, BitVec.getLsbD_extractLsb', getLsbD_wordXYN]
  simp only [hi, decide_true, Bool.true_and]
  split_ifs <;> first | omega | (congr 1; omega)

@[simp] theorem opField_wordXKK (op : Nibble) (x : Reg) (kk : Byte) :
    opField (wordXKK op x kk) = op := by
  apply BitVec.eq_of_getLsbD_eq
  intro i hi
  rw [opField, BitVec.getLsbD_extractLsb', getLsbD_wordXKK]
  simp only [hi, decide_true, Bool.true_and]
  split_ifs <;> first | omega | (congr 1; omega)

@[simp] theorem xField_wordXKK (op : Nibble) (x : Reg) (kk : Byte) :
    xField (wordXKK op x kk) = x := by
  have h : (wordXKK op x kk).extractLsb' 8 4 = BitVec.ofFin (w := 4) x := by
    apply BitVec.eq_of_getLsbD_eq
    intro i hi
    rw [BitVec.getLsbD_extractLsb', getLsbD_wordXKK]
    simp only [hi, decide_true, Bool.true_and]
    split_ifs <;> first | omega | (congr 1; omega)
  exact congrArg BitVec.toFin h

@[simp] theorem kkField_wordXKK (op : Nibble) (x : Reg) (kk : Byte) :
    kkField (wordXKK op x kk) = kk := by
  apply BitVec.eq_of_getLsbD_eq
  intro i hi
  rw [kkField, BitVec.getLsbD_extractLsb', getLsbD_wordXKK]
  simp only [hi, decide_true, Bool.true_and]
  split_ifs <;> first | omega | (congr 1; omega)

@[simp] theorem opField_wordNNN (op : Nibble) (nnn : Addr) :
    opField (wordNNN op nnn) = op := by
  apply BitVec.eq_of_getLsbD_eq
  intro i hi
  rw [opField, BitVec.getLsbD_extractLsb', getLsbD_wordNNN]
  simp only [hi, decide_true, Bool.true_and]
  split_ifs <;> first | omega | (congr 1; omega)

@[simp] theorem nnnField_wordNNN (op : Nibble) (nnn : Addr) :
    nnnField (wordNNN op nnn) = nnn := by
  apply BitVec.eq_of_getLsbD_eq
  intro i hi
  rw [nnnField, BitVec.getLsbD_extractLsb', getLsbD_wordNNN]
  simp only [hi, decide_true, Bool.true_and]
  split_ifs <;> first | omega | (congr 1; omega)

/-! A word as its fields. -/

theorem wordXYN_fields (w : Word) : wordXYN (opField w) (xField w) (yField w) (nField w) = w := by
  apply BitVec.eq_of_getLsbD_eq
  intro i hi
  simp only [getLsbD_wordXYN, opField, xField, yField, nField, BitVec.ofFin_toFin,
    BitVec.getLsbD_extractLsb']
  split_ifs
  all_goals
    rw [decide_eq_true (by omega), Bool.true_and]
    congr 1
    omega

theorem wordXKK_fields (w : Word) : wordXKK (opField w) (xField w) (kkField w) = w := by
  apply BitVec.eq_of_getLsbD_eq
  intro i hi
  simp only [getLsbD_wordXKK, opField, xField, kkField, BitVec.ofFin_toFin,
    BitVec.getLsbD_extractLsb']
  split_ifs
  all_goals
    rw [decide_eq_true (by omega), Bool.true_and]
    congr 1
    omega

theorem wordNNN_fields (w : Word) : wordNNN (opField w) (nnnField w) = w := by
  apply BitVec.eq_of_getLsbD_eq
  intro i hi
  simp only [getLsbD_wordNNN, opField, nnnField,
    BitVec.getLsbD_extractLsb']
  split_ifs
  all_goals
    rw [decide_eq_true (by omega), Bool.true_and]
    congr 1
    omega

/-- The bytes of a word, put together again in memory order (R61). -/
@[simp] theorem wordOfBytes_bytes (w : Word) : wordOfBytes (highByte w) (lowByte w) = w := by
  apply BitVec.eq_of_getLsbD_eq
  intro i hi
  refine BitVec.getLsbD_append.trans ?_
  simp only [highByte, lowByte, BitVec.getLsbD_extractLsb']
  split_ifs
  all_goals
    rw [decide_eq_true (by omega), Bool.true_and]
    congr 1
    omega

/-- Every term of `Instr` has its operand values in range: its operand types impose R97's ranges. -/
theorem wellFormed_instr (i : Instr) : i.wellFormed = true := by
  cases i <;> simp [Instr.wellFormed, Instr.fieldValues, FieldValues.wellFormed] <;>
    exact decide_eq_true (BitVec.isLt _)

/-! What selecting a row says of the fields. -/

theorem wordNNN_inj {op op' : Nibble} {nnn nnn' : Addr} :
    wordNNN op nnn = wordNNN op' nnn' ↔ op = op' ∧ nnn = nnn' := by
  constructor
  · intro h
    exact ⟨by simpa using congrArg opField h, by simpa using congrArg nnnField h⟩
  · rintro ⟨rfl, rfl⟩
    rfl

theorem wordXKK_inj {op op' : Nibble} {x x' : Reg} {kk kk' : Byte} :
    wordXKK op x kk = wordXKK op' x' kk' ↔ op = op' ∧ x = x' ∧ kk = kk' := by
  constructor
  · intro h
    exact ⟨by simpa using congrArg opField h, by simpa using congrArg xField h,
      by simpa using congrArg kkField h⟩
  · rintro ⟨rfl, rfl, rfl⟩
    rfl

theorem wordXYN_inj {op op' : Nibble} {x x' y y' : Reg} {n n' : Nibble} :
    wordXYN op x y n = wordXYN op' x' y' n' ↔ op = op' ∧ x = x' ∧ y = y' ∧ n = n' := by
  constructor
  · intro h
    exact ⟨by simpa using congrArg opField h, by simpa using congrArg xField h,
      by simpa using congrArg yField h, by simpa using congrArg nField h⟩
  · rintro ⟨rfl, rfl, rfl, rfl⟩
    rfl

theorem and_mask_F000 (w : Word) : w &&& 0xF000#16 = wordNNN (opField w) 0#12 := by
  conv_lhs => rw [← wordNNN_fields w, show (0xF000#16) = wordNNN 0xF#4 0#12 from rfl]
  apply BitVec.eq_of_getLsbD_eq
  intro i hi
  simp only [BitVec.getLsbD_and, getLsbD_wordNNN]
  split_ifs
  · simp
  · rw [← BitVec.getLsbD_and, show (0xF#4) = BitVec.allOnes 4 from rfl, BitVec.and_allOnes]

theorem and_mask_F00F (w : Word) : w &&& 0xF00F#16 = wordXYN (opField w) 0 0 (nField w) := by
  conv_lhs => rw [← wordXYN_fields w, show (0xF00F#16) = wordXYN 0xF#4 0 0 0xF#4 from rfl]
  apply BitVec.eq_of_getLsbD_eq
  intro i hi
  simp only [BitVec.getLsbD_and, getLsbD_wordXYN]
  split_ifs
  · rw [← BitVec.getLsbD_and, show (0xF#4) = BitVec.allOnes 4 from rfl, BitVec.and_allOnes]
  · rw [← BitVec.getLsbD_and, show BitVec.ofFin (w := 4) 0 = 0#4 from rfl, BitVec.and_zero]
  · rw [← BitVec.getLsbD_and, show BitVec.ofFin (w := 4) 0 = 0#4 from rfl, BitVec.and_zero]
  · rw [← BitVec.getLsbD_and, show (0xF#4) = BitVec.allOnes 4 from rfl, BitVec.and_allOnes]

theorem and_mask_F0FF (w : Word) : w &&& 0xF0FF#16 = wordXKK (opField w) 0 (kkField w) := by
  conv_lhs => rw [← wordXKK_fields w, show (0xF0FF#16) = wordXKK 0xF#4 0 0xFF#8 from rfl]
  apply BitVec.eq_of_getLsbD_eq
  intro i hi
  simp only [BitVec.getLsbD_and, getLsbD_wordXKK]
  split_ifs
  · rw [← BitVec.getLsbD_and, show (0xFF#8) = BitVec.allOnes 8 from rfl, BitVec.and_allOnes]
  · rw [← BitVec.getLsbD_and, show BitVec.ofFin (w := 4) 0 = 0#4 from rfl, BitVec.and_zero]
  · rw [← BitVec.getLsbD_and, show (0xF#4) = BitVec.allOnes 4 from rfl, BitVec.and_allOnes]

/-- A row with mask 0xF000 is selected by its op alone. -/
theorem selects_F000 {v : Word} (m : String) (w : Word) (h : nnnField v = 0#12) :
    OpRow.selects ⟨m, 0xF000#16, v⟩ w = (opField w == opField v) := by
  rw [Bool.eq_iff_iff]
  simp only [OpRow.selects, and_mask_F000, beq_iff_eq]
  conv_lhs => rw [← wordNNN_fields v, h]
  simp [wordNNN_inj]

/-- A row with mask 0xF00F is selected by its op and its n. -/
theorem selects_F00F {v : Word} (m : String) (w : Word) (hx : xField v = 0) (hy : yField v = 0) :
    OpRow.selects ⟨m, 0xF00F#16, v⟩ w = (opField w == opField v && nField w == nField v) := by
  rw [Bool.eq_iff_iff]
  simp only [OpRow.selects, and_mask_F00F, beq_iff_eq, Bool.and_eq_true]
  conv_lhs => rw [← wordXYN_fields v, hx, hy]
  simp [wordXYN_inj]

/-- A row with mask 0xF0FF is selected by its op and its kk. -/
theorem selects_F0FF {v : Word} (m : String) (w : Word) (hx : xField v = 0) :
    OpRow.selects ⟨m, 0xF0FF#16, v⟩ w = (opField w == opField v && kkField w == kkField v) := by
  rw [Bool.eq_iff_iff]
  simp only [OpRow.selects, and_mask_F0FF, beq_iff_eq, Bool.and_eq_true]
  conv_lhs => rw [← wordXKK_fields v, hx]
  simp [wordXKK_inj]

/-- A row with mask 0xFFFF is selected by its op and its nnn. -/
theorem selects_FFFF {v : Word} (m : String) (w : Word) :
    OpRow.selects ⟨m, 0xFFFF#16, v⟩ w = (opField w == opField v && nnnField w == nnnField v) := by
  rw [Bool.eq_iff_iff]
  simp only [OpRow.selects, show (0xFFFF#16) = BitVec.allOnes 16 from rfl, BitVec.and_allOnes,
    beq_iff_eq, Bool.and_eq_true]
  conv_lhs => rw [← wordNNN_fields w, ← wordNNN_fields v]
  simp [wordNNN_inj]

/-- The one error of the decoder is UNKNOWN_OPCODE with the word (R93). -/
theorem decode_error {w : Word} {e : DecodeError} (h : decode w = .error e) : e = .unknownOpcode w := by
  unfold decode decodeOp0 decodeOp8 decodeOpE decodeOpF at h
  split at h
  all_goals repeat' split at h
  all_goals first | exact (Except.error.inj h).symm | cases h

end Sys2Proof
end

