-- ==== Sys2Proof/Laws/State.lean ====
section
/-! SUPPORT. What each named update of `State` does to each field: one lemma per field per update, so that no
proof unfolds a record update. -/

namespace Sys2Proof.Machine

variable (s : State)

/-! `State.setReg` -/

@[simp] theorem setReg_V (x : Reg) (b : Byte) : (s.setReg x b).V = s.V.set x.val b x.isLt := rfl
@[simp] theorem setReg_I (x : Reg) (b : Byte) : (s.setReg x b).I = s.I := rfl
@[simp] theorem setReg_pc (x : Reg) (b : Byte) : (s.setReg x b).pc = s.pc := rfl
@[simp] theorem setReg_sp (x : Reg) (b : Byte) : (s.setReg x b).sp = s.sp := rfl
@[simp] theorem setReg_stack (x : Reg) (b : Byte) : (s.setReg x b).stack = s.stack := rfl
@[simp] theorem setReg_DT (x : Reg) (b : Byte) : (s.setReg x b).DT = s.DT := rfl
@[simp] theorem setReg_ST (x : Reg) (b : Byte) : (s.setReg x b).ST = s.ST := rfl
@[simp] theorem setReg_mem (x : Reg) (b : Byte) : (s.setReg x b).mem = s.mem := rfl
@[simp] theorem setReg_fb (x : Reg) (b : Byte) : (s.setReg x b).fb = s.fb := rfl
@[simp] theorem setReg_keys (x : Reg) (b : Byte) : (s.setReg x b).keys = s.keys := rfl
@[simp] theorem setReg_fault (x : Reg) (b : Byte) : (s.setReg x b).fault = s.fault := rfl
@[simp] theorem setReg_draws (x : Reg) (b : Byte) : (s.setReg x b).draws = s.draws := rfl

/-! `State.setPc` -/

@[simp] theorem setPc_V (w : Word) : (s.setPc w).V = s.V := rfl
@[simp] theorem setPc_I (w : Word) : (s.setPc w).I = s.I := rfl
@[simp] theorem setPc_pc (w : Word) : (s.setPc w).pc = w := rfl
@[simp] theorem setPc_sp (w : Word) : (s.setPc w).sp = s.sp := rfl
@[simp] theorem setPc_stack (w : Word) : (s.setPc w).stack = s.stack := rfl
@[simp] theorem setPc_DT (w : Word) : (s.setPc w).DT = s.DT := rfl
@[simp] theorem setPc_ST (w : Word) : (s.setPc w).ST = s.ST := rfl
@[simp] theorem setPc_mem (w : Word) : (s.setPc w).mem = s.mem := rfl
@[simp] theorem setPc_fb (w : Word) : (s.setPc w).fb = s.fb := rfl
@[simp] theorem setPc_keys (w : Word) : (s.setPc w).keys = s.keys := rfl
@[simp] theorem setPc_fault (w : Word) : (s.setPc w).fault = s.fault := rfl
@[simp] theorem setPc_draws (w : Word) : (s.setPc w).draws = s.draws := rfl

/-! `State.setI` -/

@[simp] theorem setI_V (w : Word) : (s.setI w).V = s.V := rfl
@[simp] theorem setI_I (w : Word) : (s.setI w).I = w := rfl
@[simp] theorem setI_pc (w : Word) : (s.setI w).pc = s.pc := rfl
@[simp] theorem setI_sp (w : Word) : (s.setI w).sp = s.sp := rfl
@[simp] theorem setI_stack (w : Word) : (s.setI w).stack = s.stack := rfl
@[simp] theorem setI_DT (w : Word) : (s.setI w).DT = s.DT := rfl
@[simp] theorem setI_ST (w : Word) : (s.setI w).ST = s.ST := rfl
@[simp] theorem setI_mem (w : Word) : (s.setI w).mem = s.mem := rfl
@[simp] theorem setI_fb (w : Word) : (s.setI w).fb = s.fb := rfl
@[simp] theorem setI_keys (w : Word) : (s.setI w).keys = s.keys := rfl
@[simp] theorem setI_fault (w : Word) : (s.setI w).fault = s.fault := rfl
@[simp] theorem setI_draws (w : Word) : (s.setI w).draws = s.draws := rfl

/-! `State.setDT` -/

@[simp] theorem setDT_V (b : Byte) : (s.setDT b).V = s.V := rfl
@[simp] theorem setDT_I (b : Byte) : (s.setDT b).I = s.I := rfl
@[simp] theorem setDT_pc (b : Byte) : (s.setDT b).pc = s.pc := rfl
@[simp] theorem setDT_sp (b : Byte) : (s.setDT b).sp = s.sp := rfl
@[simp] theorem setDT_stack (b : Byte) : (s.setDT b).stack = s.stack := rfl
@[simp] theorem setDT_DT (b : Byte) : (s.setDT b).DT = b := rfl
@[simp] theorem setDT_ST (b : Byte) : (s.setDT b).ST = s.ST := rfl
@[simp] theorem setDT_mem (b : Byte) : (s.setDT b).mem = s.mem := rfl
@[simp] theorem setDT_fb (b : Byte) : (s.setDT b).fb = s.fb := rfl
@[simp] theorem setDT_keys (b : Byte) : (s.setDT b).keys = s.keys := rfl
@[simp] theorem setDT_fault (b : Byte) : (s.setDT b).fault = s.fault := rfl
@[simp] theorem setDT_draws (b : Byte) : (s.setDT b).draws = s.draws := rfl

/-! `State.setST` -/

@[simp] theorem setST_V (b : Byte) : (s.setST b).V = s.V := rfl
@[simp] theorem setST_I (b : Byte) : (s.setST b).I = s.I := rfl
@[simp] theorem setST_pc (b : Byte) : (s.setST b).pc = s.pc := rfl
@[simp] theorem setST_sp (b : Byte) : (s.setST b).sp = s.sp := rfl
@[simp] theorem setST_stack (b : Byte) : (s.setST b).stack = s.stack := rfl
@[simp] theorem setST_DT (b : Byte) : (s.setST b).DT = s.DT := rfl
@[simp] theorem setST_ST (b : Byte) : (s.setST b).ST = b := rfl
@[simp] theorem setST_mem (b : Byte) : (s.setST b).mem = s.mem := rfl
@[simp] theorem setST_fb (b : Byte) : (s.setST b).fb = s.fb := rfl
@[simp] theorem setST_keys (b : Byte) : (s.setST b).keys = s.keys := rfl
@[simp] theorem setST_fault (b : Byte) : (s.setST b).fault = s.fault := rfl
@[simp] theorem setST_draws (b : Byte) : (s.setST b).draws = s.draws := rfl

/-! `State.setMem` -/

@[simp] theorem setMem_V (m : Memory) : (s.setMem m).V = s.V := rfl
@[simp] theorem setMem_I (m : Memory) : (s.setMem m).I = s.I := rfl
@[simp] theorem setMem_pc (m : Memory) : (s.setMem m).pc = s.pc := rfl
@[simp] theorem setMem_sp (m : Memory) : (s.setMem m).sp = s.sp := rfl
@[simp] theorem setMem_stack (m : Memory) : (s.setMem m).stack = s.stack := rfl
@[simp] theorem setMem_DT (m : Memory) : (s.setMem m).DT = s.DT := rfl
@[simp] theorem setMem_ST (m : Memory) : (s.setMem m).ST = s.ST := rfl
@[simp] theorem setMem_mem (m : Memory) : (s.setMem m).mem = m := rfl
@[simp] theorem setMem_fb (m : Memory) : (s.setMem m).fb = s.fb := rfl
@[simp] theorem setMem_keys (m : Memory) : (s.setMem m).keys = s.keys := rfl
@[simp] theorem setMem_fault (m : Memory) : (s.setMem m).fault = s.fault := rfl
@[simp] theorem setMem_draws (m : Memory) : (s.setMem m).draws = s.draws := rfl

/-! `State.setFb` -/

@[simp] theorem setFb_V (f : Framebuffer) : (s.setFb f).V = s.V := rfl
@[simp] theorem setFb_I (f : Framebuffer) : (s.setFb f).I = s.I := rfl
@[simp] theorem setFb_pc (f : Framebuffer) : (s.setFb f).pc = s.pc := rfl
@[simp] theorem setFb_sp (f : Framebuffer) : (s.setFb f).sp = s.sp := rfl
@[simp] theorem setFb_stack (f : Framebuffer) : (s.setFb f).stack = s.stack := rfl
@[simp] theorem setFb_DT (f : Framebuffer) : (s.setFb f).DT = s.DT := rfl
@[simp] theorem setFb_ST (f : Framebuffer) : (s.setFb f).ST = s.ST := rfl
@[simp] theorem setFb_mem (f : Framebuffer) : (s.setFb f).mem = s.mem := rfl
@[simp] theorem setFb_fb (f : Framebuffer) : (s.setFb f).fb = f := rfl
@[simp] theorem setFb_keys (f : Framebuffer) : (s.setFb f).keys = s.keys := rfl
@[simp] theorem setFb_fault (f : Framebuffer) : (s.setFb f).fault = s.fault := rfl
@[simp] theorem setFb_draws (f : Framebuffer) : (s.setFb f).draws = s.draws := rfl

/-! `State.setKeys` -/

@[simp] theorem setKeys_V (k : Vector Bool 16) : (s.setKeys k).V = s.V := rfl
@[simp] theorem setKeys_I (k : Vector Bool 16) : (s.setKeys k).I = s.I := rfl
@[simp] theorem setKeys_pc (k : Vector Bool 16) : (s.setKeys k).pc = s.pc := rfl
@[simp] theorem setKeys_sp (k : Vector Bool 16) : (s.setKeys k).sp = s.sp := rfl
@[simp] theorem setKeys_stack (k : Vector Bool 16) : (s.setKeys k).stack = s.stack := rfl
@[simp] theorem setKeys_DT (k : Vector Bool 16) : (s.setKeys k).DT = s.DT := rfl
@[simp] theorem setKeys_ST (k : Vector Bool 16) : (s.setKeys k).ST = s.ST := rfl
@[simp] theorem setKeys_mem (k : Vector Bool 16) : (s.setKeys k).mem = s.mem := rfl
@[simp] theorem setKeys_fb (k : Vector Bool 16) : (s.setKeys k).fb = s.fb := rfl
@[simp] theorem setKeys_keys (k : Vector Bool 16) : (s.setKeys k).keys = k := rfl
@[simp] theorem setKeys_fault (k : Vector Bool 16) : (s.setKeys k).fault = s.fault := rfl
@[simp] theorem setKeys_draws (k : Vector Bool 16) : (s.setKeys k).draws = s.draws := rfl

/-! `State.countDraw` -/

@[simp] theorem countDraw_V : (s.countDraw).V = s.V := rfl
@[simp] theorem countDraw_I : (s.countDraw).I = s.I := rfl
@[simp] theorem countDraw_pc : (s.countDraw).pc = s.pc := rfl
@[simp] theorem countDraw_sp : (s.countDraw).sp = s.sp := rfl
@[simp] theorem countDraw_stack : (s.countDraw).stack = s.stack := rfl
@[simp] theorem countDraw_DT : (s.countDraw).DT = s.DT := rfl
@[simp] theorem countDraw_ST : (s.countDraw).ST = s.ST := rfl
@[simp] theorem countDraw_mem : (s.countDraw).mem = s.mem := rfl
@[simp] theorem countDraw_fb : (s.countDraw).fb = s.fb := rfl
@[simp] theorem countDraw_keys : (s.countDraw).keys = s.keys := rfl
@[simp] theorem countDraw_fault : (s.countDraw).fault = s.fault := rfl
@[simp] theorem countDraw_draws : (s.countDraw).draws = s.draws + 1 := rfl

/-! `State.withFault` -/

@[simp] theorem withFault_V (r : FaultRecord) : (s.withFault r).V = s.V := rfl
@[simp] theorem withFault_I (r : FaultRecord) : (s.withFault r).I = s.I := rfl
@[simp] theorem withFault_pc (r : FaultRecord) : (s.withFault r).pc = s.pc := rfl
@[simp] theorem withFault_sp (r : FaultRecord) : (s.withFault r).sp = s.sp := rfl
@[simp] theorem withFault_stack (r : FaultRecord) : (s.withFault r).stack = s.stack := rfl
@[simp] theorem withFault_DT (r : FaultRecord) : (s.withFault r).DT = s.DT := rfl
@[simp] theorem withFault_ST (r : FaultRecord) : (s.withFault r).ST = s.ST := rfl
@[simp] theorem withFault_mem (r : FaultRecord) : (s.withFault r).mem = s.mem := rfl
@[simp] theorem withFault_fb (r : FaultRecord) : (s.withFault r).fb = s.fb := rfl
@[simp] theorem withFault_keys (r : FaultRecord) : (s.withFault r).keys = s.keys := rfl
@[simp] theorem withFault_fault (r : FaultRecord) : (s.withFault r).fault = some r := rfl
@[simp] theorem withFault_draws (r : FaultRecord) : (s.withFault r).draws = s.draws := rfl

/-! `State.advance` -/

@[simp] theorem advance_V : (s.advance).V = s.V := rfl
@[simp] theorem advance_I : (s.advance).I = s.I := rfl
@[simp] theorem advance_pc : (s.advance).pc = s.pc + 2 := rfl
@[simp] theorem advance_sp : (s.advance).sp = s.sp := rfl
@[simp] theorem advance_stack : (s.advance).stack = s.stack := rfl
@[simp] theorem advance_DT : (s.advance).DT = s.DT := rfl
@[simp] theorem advance_ST : (s.advance).ST = s.ST := rfl
@[simp] theorem advance_mem : (s.advance).mem = s.mem := rfl
@[simp] theorem advance_fb : (s.advance).fb = s.fb := rfl
@[simp] theorem advance_keys : (s.advance).keys = s.keys := rfl
@[simp] theorem advance_fault : (s.advance).fault = s.fault := rfl
@[simp] theorem advance_draws : (s.advance).draws = s.draws := rfl

/-! `State.push` -/

@[simp] theorem push_V (v : Word) (h : s.sp.toNat < 16) : (s.push v h).V = s.V := rfl
@[simp] theorem push_I (v : Word) (h : s.sp.toNat < 16) : (s.push v h).I = s.I := rfl
@[simp] theorem push_pc (v : Word) (h : s.sp.toNat < 16) : (s.push v h).pc = s.pc := rfl
@[simp] theorem push_sp (v : Word) (h : s.sp.toNat < 16) : (s.push v h).sp = s.sp + 1 := rfl
@[simp] theorem push_stack (v : Word) (h : s.sp.toNat < 16) : (s.push v h).stack = s.stack.set s.sp.toNat v h := rfl
@[simp] theorem push_DT (v : Word) (h : s.sp.toNat < 16) : (s.push v h).DT = s.DT := rfl
@[simp] theorem push_ST (v : Word) (h : s.sp.toNat < 16) : (s.push v h).ST = s.ST := rfl
@[simp] theorem push_mem (v : Word) (h : s.sp.toNat < 16) : (s.push v h).mem = s.mem := rfl
@[simp] theorem push_fb (v : Word) (h : s.sp.toNat < 16) : (s.push v h).fb = s.fb := rfl
@[simp] theorem push_keys (v : Word) (h : s.sp.toNat < 16) : (s.push v h).keys = s.keys := rfl
@[simp] theorem push_fault (v : Word) (h : s.sp.toNat < 16) : (s.push v h).fault = s.fault := rfl
@[simp] theorem push_draws (v : Word) (h : s.sp.toNat < 16) : (s.push v h).draws = s.draws := rfl

/-! `State.pop` -/

@[simp] theorem pop_V : (s.pop).V = s.V := rfl
@[simp] theorem pop_I : (s.pop).I = s.I := rfl
@[simp] theorem pop_pc : (s.pop).pc = s.pc := rfl
@[simp] theorem pop_sp : (s.pop).sp = s.sp - 1 := rfl
@[simp] theorem pop_stack : (s.pop).stack = s.stack := rfl
@[simp] theorem pop_DT : (s.pop).DT = s.DT := rfl
@[simp] theorem pop_ST : (s.pop).ST = s.ST := rfl
@[simp] theorem pop_mem : (s.pop).mem = s.mem := rfl
@[simp] theorem pop_fb : (s.pop).fb = s.fb := rfl
@[simp] theorem pop_keys : (s.pop).keys = s.keys := rfl
@[simp] theorem pop_fault : (s.pop).fault = s.fault := rfl
@[simp] theorem pop_draws : (s.pop).draws = s.draws := rfl

/-! `State.skipIf` -/

@[simp] theorem skipIf_V (c : Bool) : (s.skipIf c).V = s.V := by
  cases c <;> rfl
@[simp] theorem skipIf_I (c : Bool) : (s.skipIf c).I = s.I := by
  cases c <;> rfl
@[simp] theorem skipIf_pc (c : Bool) : (s.skipIf c).pc = if c then s.pc + 2 else s.pc := by
  cases c <;> rfl
@[simp] theorem skipIf_sp (c : Bool) : (s.skipIf c).sp = s.sp := by
  cases c <;> rfl
@[simp] theorem skipIf_stack (c : Bool) : (s.skipIf c).stack = s.stack := by
  cases c <;> rfl
@[simp] theorem skipIf_DT (c : Bool) : (s.skipIf c).DT = s.DT := by
  cases c <;> rfl
@[simp] theorem skipIf_ST (c : Bool) : (s.skipIf c).ST = s.ST := by
  cases c <;> rfl
@[simp] theorem skipIf_mem (c : Bool) : (s.skipIf c).mem = s.mem := by
  cases c <;> rfl
@[simp] theorem skipIf_fb (c : Bool) : (s.skipIf c).fb = s.fb := by
  cases c <;> rfl
@[simp] theorem skipIf_keys (c : Bool) : (s.skipIf c).keys = s.keys := by
  cases c <;> rfl
@[simp] theorem skipIf_fault (c : Bool) : (s.skipIf c).fault = s.fault := by
  cases c <;> rfl
@[simp] theorem skipIf_draws (c : Bool) : (s.skipIf c).draws = s.draws := by
  cases c <;> rfl

/-! `State.setRegFlag` -/

@[simp] theorem setRegFlag_I (x : Reg) (r b : Byte) : (s.setRegFlag x r b).I = s.I := rfl
@[simp] theorem setRegFlag_pc (x : Reg) (r b : Byte) : (s.setRegFlag x r b).pc = s.pc := rfl
@[simp] theorem setRegFlag_sp (x : Reg) (r b : Byte) : (s.setRegFlag x r b).sp = s.sp := rfl
@[simp] theorem setRegFlag_stack (x : Reg) (r b : Byte) : (s.setRegFlag x r b).stack = s.stack := rfl
@[simp] theorem setRegFlag_DT (x : Reg) (r b : Byte) : (s.setRegFlag x r b).DT = s.DT := rfl
@[simp] theorem setRegFlag_ST (x : Reg) (r b : Byte) : (s.setRegFlag x r b).ST = s.ST := rfl
@[simp] theorem setRegFlag_mem (x : Reg) (r b : Byte) : (s.setRegFlag x r b).mem = s.mem := rfl
@[simp] theorem setRegFlag_fb (x : Reg) (r b : Byte) : (s.setRegFlag x r b).fb = s.fb := rfl
@[simp] theorem setRegFlag_keys (x : Reg) (r b : Byte) : (s.setRegFlag x r b).keys = s.keys := rfl
@[simp] theorem setRegFlag_fault (x : Reg) (r b : Byte) : (s.setRegFlag x r b).fault = s.fault := rfl
@[simp] theorem setRegFlag_draws (x : Reg) (r b : Byte) : (s.setRegFlag x r b).draws = s.draws := rfl

/-! The registers, read through `State.reg`. -/

/-- Reading a register after a write: the value written, or the old one (R31: no aliases). -/
theorem reg_setReg (x k : Reg) (b : Byte) :
    (s.setReg x b).reg k = if k = x then b else s.reg k := by
  unfold State.reg State.setReg
  simp only [Vector.get_eq_getElem, Vector.getElem_set, Fin.ext_iff]
  by_cases h : x.val = k.val
  · simp [h]
  · simp [h, Ne.symm h]

@[simp] theorem reg_setReg_self (x : Reg) (b : Byte) : (s.setReg x b).reg x = b := by
  simp [reg_setReg]

theorem reg_setReg_ne {x k : Reg} (h : k ≠ x) (b : Byte) : (s.setReg x b).reg k = s.reg k := by
  simp [reg_setReg, h]

/-- VF ends as the flag, x = 0xF included (R133). -/
@[simp] theorem reg_setRegFlag_flag (x : Reg) (r b : Byte) : (s.setRegFlag x r b).reg regVF = b := by
  simp [State.setRegFlag]

/-- A destination other than VF holds the result. -/
theorem reg_setRegFlag_result {x : Reg} (h : x ≠ regVF) (r b : Byte) :
    (s.setRegFlag x r b).reg x = r := by
  simp [State.setRegFlag, reg_setReg_ne _ h]

theorem reg_setRegFlag_other {x k : Reg} (hx : k ≠ x) (hf : k ≠ regVF) (r b : Byte) :
    (s.setRegFlag x r b).reg k = s.reg k := by
  simp [State.setRegFlag, reg_setReg_ne _ hf, reg_setReg_ne _ hx]

@[simp] theorem reg_setPc (x : Reg) (w : Word) : (s.setPc w).reg x = s.reg x := rfl
@[simp] theorem reg_setI (x : Reg) (w : Word) : (s.setI w).reg x = s.reg x := rfl
@[simp] theorem reg_setDT (x : Reg) (b : Byte) : (s.setDT b).reg x = s.reg x := rfl
@[simp] theorem reg_setST (x : Reg) (b : Byte) : (s.setST b).reg x = s.reg x := rfl
@[simp] theorem reg_setMem (x : Reg) (m : Memory) : (s.setMem m).reg x = s.reg x := rfl
@[simp] theorem reg_setFb (x : Reg) (f : Framebuffer) : (s.setFb f).reg x = s.reg x := rfl
@[simp] theorem reg_setKeys (x : Reg) (k : Vector Bool 16) : (s.setKeys k).reg x = s.reg x := rfl
@[simp] theorem reg_countDraw (x : Reg) : (s.countDraw).reg x = s.reg x := rfl
@[simp] theorem reg_withFault (x : Reg) (r : FaultRecord) : (s.withFault r).reg x = s.reg x := rfl
@[simp] theorem reg_advance (x : Reg) : (s.advance).reg x = s.reg x := rfl
@[simp] theorem reg_push (x : Reg) (v : Word) (h : s.sp.toNat < 16) : (s.push v h).reg x = s.reg x := rfl
@[simp] theorem reg_pop (x : Reg) : (s.pop).reg x = s.reg x := rfl
@[simp] theorem reg_skipIf (x : Reg) (c : Bool) : (s.skipIf c).reg x = s.reg x := by
  cases c <;> rfl

end Sys2Proof.Machine
end

