-- ==== Sys2Proof/Laws/Memory.lean ====
section
/-! SUPPORT. Memory: a read after a write (spec/20_memory.md R70), runs of bytes, and that every memory
operation keeps the canonical form `Memory.wf`. -/

namespace Sys2Proof.Machine

@[simp] theorem Memory.read_nil (a : Nat) : Memory.read [] a = Memory.initialByte a := rfl

theorem Memory.read_cons (b : Nat) (w : Byte) (m : Memory) (a : Nat) :
    Memory.read ((b, w) :: m) a = if b = a then w else Memory.read m a := rfl

theorem Memory.read_erase (m : Memory) (a c : Nat) :
    (Memory.erase m a).read c = if c = a then Memory.initialByte a else m.read c := by
  induction m with
  | nil => by_cases h : c = a <;> simp [Memory.erase, h]
  | cons p m ih =>
    obtain ⟨b, w⟩ := p
    unfold Memory.erase at ih ⊢
    by_cases hb : b = a
    · subst hb
      simp only [List.filter_cons, bne_self_eq_false, Bool.false_eq_true, if_false, ih,
        Memory.read_cons]
      by_cases hc : c = b
      · simp [hc]
      · simp [hc, Ne.symm hc]
    · simp only [List.filter_cons, bne_iff_ne, ne_eq, hb, not_false_eq_true, if_true,
        Memory.read_cons, ih]
      by_cases hbc : b = c
      · simp [hbc ▸ hb, hbc]
      · simp [hbc]

theorem Memory.read_insert (m : Memory) (a c : Nat) (v : Byte) (h : ∀ p ∈ m, p.1 ≠ a) :
    (Memory.insert m a v).read c = if c = a then v else m.read c := by
  induction m with
  | nil =>
    simp only [Memory.insert, Memory.read_cons, Memory.read_nil]
    by_cases hc : c = a
    · simp [hc]
    · simp [hc, Ne.symm hc]
  | cons p m ih =>
    obtain ⟨b, w⟩ := p
    have hb : b ≠ a := h (b, w) (by simp)
    have hm : ∀ p ∈ m, p.1 ≠ a := fun p hp => h p (by simp [hp])
    simp only [Memory.insert]
    split
    · simp only [Memory.read_cons]
      by_cases hc : c = a
      · simp [hc]
      · simp [hc, Ne.symm hc]
    · simp only [Memory.read_cons, ih hm]
      by_cases hc : c = a
      · subst hc; simp [hb]
      · simp [hc]

theorem Memory.erase_ne (m : Memory) (a : Nat) : ∀ p ∈ m.erase a, p.1 ≠ a := by
  intro p hp
  simpa [Memory.erase] using (List.mem_filter.mp hp).2

/-- A read returns the byte written there, and every other byte is as before, in any memory. -/
theorem Memory.read_write (m : Memory) (a c : Nat) (v : Byte) :
    (m.write a v).read c = if c = a then v else m.read c := by
  unfold Memory.write
  split
  · rename_i h
    rw [Memory.read_erase, h]
  · rw [Memory.read_insert _ _ _ _ (Memory.erase_ne m a), Memory.read_erase]
    by_cases hc : c = a <;> simp [hc]

@[simp] theorem Memory.writeBytes_nil (m : Memory) (a : Nat) : m.writeBytes a [] = m := rfl

@[simp] theorem Memory.writeBytes_cons (m : Memory) (a : Nat) (v : Byte) (vs : List Byte) :
    m.writeBytes a (v :: vs) = (m.write a v).writeBytes (a + 1) vs := rfl

/-- What a run of writes does, byte for byte: the bytes at their addresses, and nothing elsewhere. -/
theorem Memory.read_writeBytes (vs : List Byte) (m : Memory) (a c : Nat) :
    (m.writeBytes a vs).read c = if a ≤ c then (vs[c - a]?).getD (m.read c) else m.read c := by
  induction vs generalizing m a with
  | nil => simp
  | cons v vs ih =>
    rw [Memory.writeBytes_cons, ih, Memory.read_write]
    by_cases h1 : a + 1 ≤ c
    · have h2 : a ≤ c := by omega
      have h3 : c ≠ a := by omega
      have h4 : c - a = (c - (a + 1)) + 1 := by omega
      simp only [h1, h2, h3, h4, if_true, if_false, List.getElem?_cons_succ]
    · by_cases h2 : c = a
      · subst h2; simp
      · have h3 : ¬ a ≤ c := by omega
        simp [h1, h2, h3]

theorem Memory.read_writeBytes_outside {vs : List Byte} {m : Memory} {a c : Nat}
    (h : c < a ∨ a + vs.length ≤ c) : (m.writeBytes a vs).read c = m.read c := by
  rw [Memory.read_writeBytes]
  split
  · rw [List.getElem?_eq_none (by omega)]; rfl
  · rfl

theorem Memory.read_writeBytes_inside {vs : List Byte} {m : Memory} {a k : Nat}
    (h : k < vs.length) : (m.writeBytes a vs).read (a + k) = vs[k] := by
  rw [Memory.read_writeBytes]
  simp [h]

@[simp] theorem Memory.readBytes_length (m : Memory) (a n : Nat) : (m.readBytes a n).length = n := by
  induction n generalizing a with
  | zero => rfl
  | succ n ih => simp [Memory.readBytes, ih]

theorem Memory.readBytes_getElem? (m : Memory) (a n k : Nat) (h : k < n) :
    (m.readBytes a n)[k]? = some (m.read (a + k)) := by
  induction n generalizing a k with
  | zero => omega
  | succ n ih =>
    cases k with
    | zero => simp [Memory.readBytes]
    | succ k =>
      simp only [Memory.readBytes, List.getElem?_cons_succ]
      rw [ih (a + 1) k (by omega)]
      congr 2; omega

/-! The canonical form. -/

theorem Memory.risesAbove_iff (lo : Nat) (m : Memory) :
    Memory.risesAbove lo m = true ↔ (∀ p ∈ m, lo < p.1) ∧ Memory.rises m = true := by
  induction m generalizing lo with
  | nil => simp [Memory.risesAbove, Memory.rises]
  | cons p m ih =>
    obtain ⟨b, w⟩ := p
    simp only [Memory.risesAbove, Memory.rises, Bool.and_eq_true, decide_eq_true_eq]
    constructor
    · rintro ⟨h1, h2⟩
      refine ⟨?_, h2⟩
      intro p hp
      rcases List.mem_cons.mp hp with rfl | hp
      · exact h1
      · exact lt_trans h1 (((ih b).mp h2).1 p hp)
    · rintro ⟨h1, h2⟩
      exact ⟨h1 (b, w) (by simp), h2⟩

theorem Memory.rises_cons (b : Nat) (w : Byte) (m : Memory) :
    Memory.rises ((b, w) :: m) = true ↔ (∀ p ∈ m, b < p.1) ∧ Memory.rises m = true := by
  simpa [Memory.rises] using Memory.risesAbove_iff b m

theorem Memory.rises_erase (m : Memory) (a : Nat) (h : Memory.rises m = true) :
    Memory.rises (m.erase a) = true := by
  induction m with
  | nil => rfl
  | cons p m ih =>
    obtain ⟨b, w⟩ := p
    rw [Memory.rises_cons] at h
    unfold Memory.erase at ih ⊢
    rw [List.filter_cons]
    split
    · rw [Memory.rises_cons]
      exact ⟨fun p hp => h.1 p (List.mem_filter.mp hp).1, ih h.2⟩
    · exact ih h.2

theorem Memory.mem_insert (m : Memory) (a : Nat) (v : Byte) (p : Host.Cell) :
    p ∈ Memory.insert m a v ↔ p = (a, v) ∨ p ∈ m := by
  induction m with
  | nil => simp [Memory.insert]
  | cons q m ih =>
    obtain ⟨b, w⟩ := q
    simp only [Memory.insert]
    split
    · simp
    · simp only [List.mem_cons, ih]; tauto

theorem Memory.rises_insert (m : Memory) (a : Nat) (v : Byte) (h : Memory.rises m = true)
    (ha : ∀ p ∈ m, p.1 ≠ a) : Memory.rises (Memory.insert m a v) = true := by
  induction m with
  | nil => rfl
  | cons q m ih =>
    obtain ⟨b, w⟩ := q
    have hr := (Memory.rises_cons b w m).mp h
    simp only [Memory.insert]
    split
    · rename_i hlt
      rw [Memory.rises_cons]
      refine ⟨fun p hp => ?_, h⟩
      rcases List.mem_cons.mp hp with rfl | hp
      · exact hlt
      · exact lt_trans hlt (hr.1 p hp)
    · rename_i hlt
      have hb : b ≠ a := ha (b, w) (by simp)
      rw [Memory.rises_cons]
      refine ⟨fun p hp => ?_, ih hr.2 (fun p hp => ha p (by simp [hp]))⟩
      rcases (Memory.mem_insert m a v p).mp hp with rfl | hp
      · show b < a
        omega
      · exact hr.1 p hp

theorem Memory.wf_iff (m : Memory) :
    m.wf = true ↔ Memory.rises m = true ∧
      ∀ p ∈ m, p.1 < Config.memSize ∧ p.2 ≠ Memory.initialByte p.1 := by
  simp [Memory.wf, List.all_eq_true]

/-- A write to an address that exists keeps the canonical form. -/
theorem Memory.wf_write {m : Memory} {a : Nat} (v : Byte) (h : m.wf = true)
    (ha : a < Config.memSize) : (m.write a v).wf = true := by
  rw [Memory.wf_iff] at h ⊢
  have he : Memory.rises (m.erase a) = true ∧
      ∀ p ∈ m.erase a, p.1 < Config.memSize ∧ p.2 ≠ Memory.initialByte p.1 :=
    ⟨Memory.rises_erase m a h.1, fun p hp => h.2 p (List.mem_filter.mp hp).1⟩
  unfold Memory.write
  split
  · exact he
  · rename_i hv
    refine ⟨Memory.rises_insert _ _ _ he.1 (Memory.erase_ne m a), fun p hp => ?_⟩
    rcases (Memory.mem_insert _ a v p).mp hp with rfl | hp
    · exact ⟨ha, hv⟩
    · exact he.2 p hp

/-- A run of writes within memory keeps the canonical form. -/
theorem Memory.wf_writeBytes {vs : List Byte} {m : Memory} {a : Nat} (h : m.wf = true)
    (ha : a + vs.length ≤ Config.memSize) : (m.writeBytes a vs).wf = true := by
  induction vs generalizing m a with
  | nil => exact h
  | cons v vs ih =>
    simp only [List.length_cons] at ha
    exact ih (Memory.wf_write v h (by omega)) (by omega)

theorem Memory.wf_reset : State.reset.mem.wf = true := rfl

end Sys2Proof.Machine
end

