-- ==== Sys2Proof/Laws/Ops.lean ====
section
/-! SUPPORT. What each shared operation can do, said once: the fetch, the bounds check, the ends of the
meanings, the register runs and the pressed keys. -/

namespace Sys2Proof.Machine

/-! The fetch (R82). -/

theorem fetchWord_eq (s : State) :
    fetchWord s =
      if s.pc.toNat + 1 < 4096 then
        some (wordOfBytes (s.mem.read s.pc.toNat) (s.mem.read (s.pc.toNat + 1)))
      else none := by
  unfold fetchWord Config.memSize
  split_ifs <;> first | rfl | omega

theorem fetchWord_of_lt {s : State} (h : s.pc.toNat + 1 < 4096) :
    fetchWord s = some (wordOfBytes (s.mem.read s.pc.toNat) (s.mem.read (s.pc.toNat + 1))) := by
  rw [fetchWord_eq, if_pos h]

theorem fetchWord_eq_none {s : State} : fetchWord s = none ↔ 4096 ≤ s.pc.toNat + 1 := by
  rw [fetchWord_eq]
  split_ifs with h <;> simp
  · omega
  · omega

theorem pc_lt_of_fetchWord {s : State} {w : Word} (h : fetchWord s = some w) :
    s.pc.toNat + 1 < 4096 := by
  by_contra hn
  rw [fetchWord_eq_none.mpr (by omega)] at h
  cases h

/-! The bounds check (R60, R62). -/

theorem inBounds_iff (a n : Nat) : inBounds a n = true ↔ n = 0 ∨ a + n ≤ 4096 := by
  simp [inBounds]

/-! The ends of the meanings: what a next state can be. -/

theorem jumpTo_eq (w : Word) (s : State) : jumpTo w s = .next (s.advance.setPc w) := rfl

theorem skipWhen_eq (c : Bool) (s : State) : skipWhen c s = .next (s.advance.skipIf c) := rfl

theorem writeReg_eq (x : Reg) (r : Byte) (s : State) :
    writeReg x r s = .next (s.advance.setReg x r) := rfl

theorem writeRegFlag_eq (x : Reg) (r b : Byte) (s : State) :
    writeRegFlag x r b s = .next (s.advance.setRegFlag x r b) := rfl

theorem writeI_eq (v : Word) (s : State) : writeI v s = .next (s.advance.setI v) := rfl

/-- A store writes all of its bytes or raises its fault. -/
theorem storeBytes_cases (i : Instr) (bs : List Byte) (s : State) :
    (inBounds s.I.toNat bs.length = true ∧
      storeBytes i bs s = .next (s.advance.setMem (s.mem.writeBytes s.I.toNat bs))) ∨
    (inBounds s.I.toNat bs.length = false ∧
      storeBytes i bs s = .fault (.raised ⟨.memWriteOutOfBounds, some (encode i), s.pc⟩)) := by
  unfold storeBytes
  cases h : inBounds s.I.toNat bs.length
  · exact .inr ⟨rfl, rfl⟩
  · exact .inl ⟨rfl, rfl⟩

/-- A key number is present exactly below 16. -/
theorem keyNumber_of_lt {b : Byte} (k : Reg) (h : b.toNat = k.val) : keyNumber? b = some k := by
  unfold keyNumber?
  rw [dif_pos (h ▸ k.isLt)]
  exact congrArg some (Fin.ext h)

theorem keyNumber_of_ge {b : Byte} (h : 16 ≤ b.toNat) : keyNumber? b = none := by
  unfold keyNumber?
  rw [dif_neg (by omega)]

theorem keyNumber_cases (b : Byte) :
    (∃ k : Reg, b.toNat = k.val ∧ keyNumber? b = some k) ∨ (16 ≤ b.toNat ∧ keyNumber? b = none) := by
  by_cases h : b.toNat < 16
  · exact .inl ⟨⟨b.toNat, h⟩, rfl, keyNumber_of_lt ⟨b.toNat, h⟩ rfl⟩
  · exact .inr ⟨by omega, keyNumber_of_ge (by omega)⟩

/-! The register runs of Fx55 and Fx65. -/

theorem mem_regsUpTo : ∀ x k : Reg, k ∈ regsUpTo x ↔ k ≤ x := by decide

theorem regsUpTo_getElem? : ∀ x k : Reg, k ≤ x → (regsUpTo x)[k.val]? = some k := by decide

@[simp] theorem regsUpTo_length : ∀ x : Reg, (regsUpTo x).length = x.val + 1 := by decide

@[simp] theorem regBytes_length (s : State) (x : Reg) : (regBytes s x).length = x.val + 1 := by
  simp [regBytes]

theorem regBytes_getElem? (s : State) {x k : Reg} (h : k ≤ x) :
    (regBytes s x)[k.val]? = some (s.reg k) := by
  simp [regBytes, regsUpTo_getElem? x k h]

@[simp] theorem decimalDigits_length (b : Byte) : (decimalDigits b).length = 3 := rfl

/-- Loading registers changes the V registers alone. -/
theorem loadRegList_eq (a : Nat) (s : State) (ks : List Reg) :
    loadRegList a s ks = { s with V := (loadRegList a s ks).V } := by
  induction ks generalizing s with
  | nil => rfl
  | cons k ks ih =>
    rw [loadRegList, ih]
    rfl

/-- Each register of the list takes its byte; the others are as before. -/
theorem reg_loadRegList (a : Nat) (s : State) (ks : List Reg) (k : Reg) :
    (loadRegList a s ks).reg k = if k ∈ ks then s.mem.read (a + k.val) else s.reg k := by
  induction ks generalizing s with
  | nil => simp [loadRegList]
  | cons j ks ih =>
    rw [loadRegList, ih]
    by_cases hk : k ∈ ks
    · simp [hk]
    · by_cases hj : k = j
      · subst hj; simp [hk]
      · simp [hk, hj, reg_setReg_ne]

/-! The pressed keys (R193). -/

theorem mem_allRegs : ∀ k : Reg, k ∈ allRegs := by decide

theorem mem_pressedKeys (s : State) (k : Reg) : k ∈ pressedKeys s ↔ s.key k = true := by
  simp [pressedKeys, mem_allRegs]

theorem pressedKeys_eq_nil (s : State) : pressedKeys s = [] ↔ ∀ k, s.key k = false := by
  rw [List.eq_nil_iff_forall_not_mem]
  simp [mem_pressedKeys]

theorem pressedKeys_sorted (s : State) : (pressedKeys s).Pairwise (· < ·) :=
  List.Pairwise.filter _ (by decide)

/-- The pressed keys in order: the first is the lowest. -/
theorem pressedKeys_of_lowest {s : State} {k : Reg} (h : s.key k = true)
    (hl : ∀ j, j < k → s.key j = false) : ∃ ks, pressedKeys s = k :: ks := by
  have hm : k ∈ pressedKeys s := (mem_pressedKeys s k).mpr h
  have hs := pressedKeys_sorted s
  match hp : pressedKeys s with
  | [] => simp [hp] at hm
  | j :: ks =>
    refine ⟨ks, ?_⟩
    rw [hp] at hs hm
    have hj : s.key j = true := (mem_pressedKeys s j).mp (by simp [hp])
    rcases List.mem_cons.mp hm with rfl | hk
    · rfl
    · have hlt : j < k := (List.pairwise_cons.mp hs).1 k hk
      rw [hl j hlt] at hj
      cases hj

/-- What a key wait can do: the same state again, or the number of a pressed key in Vx. -/
theorem waitForKey_cases (pick : Reg → List Reg → Reg) (x : Reg) (s : State) :
    ((∀ k, s.key k = false) ∧ waitForKey pick x s = .next s) ∨
    (∃ k ks, pressedKeys s = k :: ks ∧
      waitForKey pick x s = .next (s.advance.setReg x (BitVec.ofNat 8 (pick k ks).val))) := by
  unfold waitForKey
  match hp : pressedKeys s with
  | [] =>
    refine .inl ⟨(pressedKeys_eq_nil s).mp hp, ?_⟩
    simp [State.advance, State.setPc]
  | k :: ks => exact .inr ⟨k, ks, rfl, rfl⟩

end Sys2Proof.Machine
end

