-- ==== Sys2Proof/Laws/Graphics.lean ====
section
/-! SUPPORT. The framebuffer, and the sprite walk in closed form (spec/43_graphics.md R171 to R174): which
pixels it toggles, and when it notes a collision. -/

namespace Sys2Proof.Machine

/-- A pixel after one is set: the new value there, the old one elsewhere. -/
theorem pixel_setPixel (f : Framebuffer) (y y' : Fin 32) (x x' : Fin 64) (b : Bool) :
    (f.setPixel y x b).pixel y' x' = if y' = y ∧ x' = x then b else f.pixel y' x' := by
  unfold Framebuffer.pixel Framebuffer.setPixel
  simp only [Vector.get_eq_getElem, Vector.getElem_set, Fin.ext_iff]
  by_cases hy : y.val = y'.val
  · have hy' : y' = y := Fin.ext hy.symm
    subst hy'
    by_cases hx : x.val = x'.val
    · simp [hx]
    · simp [hx, Ne.symm hx]
  · simp [hy, Ne.symm hy]

/-- Two framebuffers with the same pixels are the same. -/
theorem Framebuffer.ext_pixel {f g : Framebuffer} (h : ∀ y x, f.pixel y x = g.pixel y x) : f = g := by
  apply Vector.ext
  intro i hi
  apply Vector.ext
  intro j hj
  exact h ⟨i, hi⟩ ⟨j, hj⟩

@[simp] theorem pixel_blank (y : Fin 32) (x : Fin 64) : Framebuffer.blank.pixel y x = false := by
  simp [Framebuffer.blank, Framebuffer.pixel, Vector.get_eq_getElem]

/-- The column of sprite bit `c` (R173). -/
def spriteColumn (cx c : Nat) : Fin 64 := Fin.ofNat 64 (cx + c)

/-- The row of sprite row `r` (R173). -/
def spriteRow (cy r : Nat) : Fin 32 := Fin.ofNat 32 (cy + r)

/-- Whether one of the bits `cs` of row `b` is 1 and stands at column `px`. -/
def rowHits (cx : Nat) (b : Byte) (cs : List Nat) (px : Fin 64) : Bool :=
  cs.any (fun c => b.getLsbD (7 - c) && px == spriteColumn cx c)

theorem spriteColumn_inj {cx c c' : Nat} (h : c < 8) (h' : c' < 8)
    (e : spriteColumn cx c = spriteColumn cx c') : c = c' := by
  have := congrArg Fin.val e
  simp only [spriteColumn, Fin.ofNat] at this
  omega

/-- The bits `cs` of a row, drawn in order: the pixels hit are toggled, and a collision is noted if one of
them was on. -/
theorem drawBits_pixel (cx : Nat) (py : Fin 32) (b : Byte) (cs : List Nat)
    (hn : cs.Nodup) (h8 : ∀ c ∈ cs, c < 8) (d : Framebuffer × Bool) :
    (∀ y x, (cs.foldl (drawBit cx py b) d).1.pixel y x =
      (d.1.pixel y x ^^ (y == py && rowHits cx b cs x))) ∧
    ((cs.foldl (drawBit cx py b) d).2 = true ↔
      d.2 = true ∨ ∃ x, rowHits cx b cs x = true ∧ d.1.pixel py x = true) := by
  induction cs generalizing d with
  | nil => simp [rowHits]
  | cons c cs ih =>
    have hc8 : c < 8 := h8 c (by simp)
    have hnc := List.nodup_cons.mp hn
    have h8' : ∀ c ∈ cs, c < 8 := fun c hc => h8 c (by simp [hc])
    obtain ⟨ihp, ihc⟩ := ih hnc.2 h8' (drawBit cx py b d c)
    have hnot : rowHits cx b cs (spriteColumn cx c) = false := by
      rw [Bool.eq_false_iff]
      intro hh
      obtain ⟨c', hc', he⟩ := List.any_eq_true.mp hh
      simp only [Bool.and_eq_true, beq_iff_eq] at he
      exact hnc.1 (spriteColumn_inj hc8 (h8' c' hc') he.2 ▸ hc')
    have hhits : ∀ x, rowHits cx b (c :: cs) x =
        ((b.getLsbD (7 - c) && x == spriteColumn cx c) || rowHits cx b cs x) := fun _ => rfl
    rw [List.foldl_cons]
    by_cases hb : b.getLsbD (7 - c) = true
    · have hd : drawBit cx py b d c =
          (d.1.setPixel py (spriteColumn cx c) (!d.1.pixel py (spriteColumn cx c)),
            d.2 || d.1.pixel py (spriteColumn cx c)) := by
        simp only [drawBit, hb, if_true, togglePixel, spriteColumn]
      constructor
      · intro y x
        rw [ihp, hd, pixel_setPixel, hhits]
        by_cases hy : y = py
        · subst hy
          by_cases hx : x = spriteColumn cx c
          · subst hx; simp [hb, hnot]
          · simp [hx]
        · simp [hy, beq_eq_false_iff_ne.mpr hy]
      · rw [ihc, hd]
        constructor
        · rintro (h | ⟨x, hx, hp⟩)
          · rcases Bool.or_eq_true _ _ ▸ h with h | h
            · exact .inl h
            · exact .inr ⟨spriteColumn cx c, by simp [hhits, hb], h⟩
          · refine .inr ⟨x, by simp [hhits, hx], ?_⟩
            have hne : x ≠ spriteColumn cx c := by rintro rfl; rw [hnot] at hx; cases hx
            simpa [pixel_setPixel, hne] using hp
        · rintro (h | ⟨x, hx, hp⟩)
          · exact .inl (by simp [h])
          · by_cases hxc : x = spriteColumn cx c
            · subst hxc; exact .inl (by simp [hp])
            · refine .inr ⟨x, by simpa [hhits, hxc] using hx, ?_⟩
              simpa [pixel_setPixel, hxc] using hp
    · have hd : drawBit cx py b d c = d := by simp [drawBit, hb]
      rw [hd] at ihp ihc ⊢
      have hh : ∀ x, rowHits cx b (c :: cs) x = rowHits cx b cs x := fun x => by
        simp [hhits, hb]
      simp only [hh]
      exact ⟨ihp, ihc⟩

/-- One sprite row in closed form. -/
theorem drawRow_pixel (cx : Nat) (py : Fin 32) (b : Byte) (d : Framebuffer × Bool) :
    (∀ y x, (drawRow cx py b d).1.pixel y x =
      (d.1.pixel y x ^^ (y == py && rowHits cx b [0, 1, 2, 3, 4, 5, 6, 7] x))) ∧
    ((drawRow cx py b d).2 = true ↔
      d.2 = true ∨ ∃ x, rowHits cx b [0, 1, 2, 3, 4, 5, 6, 7] x = true ∧ d.1.pixel py x = true) :=
  drawBits_pixel cx py b _ (by decide) (by decide) d

/-- Whether the sprite `bs`, whose first byte is row `r`, has a 1-bit at pixel (px, py). -/
def spriteHits (cx cy : Nat) : Nat → List Byte → Fin 32 → Fin 64 → Bool
  | _, [], _, _ => false
  | r, b :: bs, py, px =>
    (py == spriteRow cy r && rowHits cx b [0, 1, 2, 3, 4, 5, 6, 7] px) ||
      spriteHits cx cy (r + 1) bs py px

theorem spriteHits_row {cx cy r : Nat} {bs : List Byte} {py : Fin 32} {px : Fin 64}
    (h : spriteHits cx cy r bs py px = true) :
    ∃ k, k < bs.length ∧ py = spriteRow cy (r + k) := by
  induction bs generalizing r with
  | nil => cases h
  | cons b bs ih =>
    rcases Bool.or_eq_true _ _ ▸ h with h | h
    · exact ⟨0, by simp, by simpa using eq_of_beq (Bool.and_eq_true _ _ ▸ h).1⟩
    · obtain ⟨k, hk, e⟩ := ih h
      exact ⟨k + 1, by simpa using hk, by rw [e]; congr 1; omega⟩

/-- The sprite walk in closed form: the pixels hit are toggled, and a collision is noted if one of them was
on before the walk. No two rows share a pixel, since a sprite has fewer than 32 (R174). -/
theorem drawRows_pixel (cx cy r : Nat) (bs : List Byte) (hl : r + bs.length ≤ 32)
    (d : Framebuffer × Bool) :
    (∀ y x, (drawRows cx cy r bs d).1.pixel y x =
      (d.1.pixel y x ^^ spriteHits cx cy r bs y x)) ∧
    ((drawRows cx cy r bs d).2 = true ↔
      d.2 = true ∨ ∃ y x, spriteHits cx cy r bs y x = true ∧ d.1.pixel y x = true) := by
  induction bs generalizing r d with
  | nil => simp [drawRows, spriteHits]
  | cons b bs ih =>
    rw [show drawRows cx cy r (b :: bs) d =
      drawRows cx cy (r + 1) bs (drawRow cx (spriteRow cy r) b d) from rfl]
    simp only [List.length_cons] at hl
    obtain ⟨ihp, ihc⟩ := ih (r + 1) (by omega) (drawRow cx (spriteRow cy r) b d)
    obtain ⟨hp, hc⟩ := drawRow_pixel cx (spriteRow cy r) b d
    have hnot : ∀ x, spriteHits cx cy (r + 1) bs (spriteRow cy r) x = false := by
      intro x
      rw [Bool.eq_false_iff]
      intro h
      obtain ⟨k, hk, e⟩ := spriteHits_row h
      have := congrArg Fin.val e
      simp only [spriteRow, Fin.ofNat] at this
      omega
    have hcons : ∀ y x, spriteHits cx cy r (b :: bs) y x =
        ((y == spriteRow cy r && rowHits cx b [0, 1, 2, 3, 4, 5, 6, 7] x) ||
          spriteHits cx cy (r + 1) bs y x) := fun _ _ => rfl
    constructor
    · intro y x
      rw [ihp, hp, hcons]
      by_cases hy : y = spriteRow cy r
      · subst hy; simp [hnot]
      · simp [beq_eq_false_iff_ne.mpr hy]
    · rw [ihc, hc]
      constructor
      · rintro ((h | ⟨x, hx, hpx⟩) | ⟨y, x, hyx, hpx⟩)
        · exact .inl h
        · exact .inr ⟨_, x, by simp [hcons, hx], hpx⟩
        · have hy : y ≠ spriteRow cy r := by rintro rfl; rw [hnot] at hyx; cases hyx
          exact .inr ⟨y, x, by simp [hcons, hyx], by simpa [hp, beq_eq_false_iff_ne.mpr hy] using hpx⟩
      · rintro (h | ⟨y, x, hyx, hpx⟩)
        · exact .inl (.inl h)
        · by_cases hy : y = spriteRow cy r
          · subst hy
            exact .inl (.inr ⟨x, by simpa [hcons, hnot] using hyx, hpx⟩)
          · exact .inr ⟨y, x, by simpa [hcons, beq_eq_false_iff_ne.mpr hy] using hyx, by simpa [hp, beq_eq_false_iff_ne.mpr hy] using hpx⟩

/-- Column `px` of a row holds the bit that lies `px - cx` columns from the start, around the edge. -/
theorem rowHits_iff (cx : Nat) (b : Byte) (px : Fin 64) :
    rowHits cx b [0, 1, 2, 3, 4, 5, 6, 7] px = true ↔
      (px.val + 64 - cx % 64) % 64 < 8 ∧
        b.getLsbD (7 - (px.val + 64 - cx % 64) % 64) = true := by
  simp only [rowHits, List.any_eq_true, Bool.and_eq_true, beq_iff_eq]
  constructor
  · rintro ⟨c, hc, hb, rfl⟩
    have hc8 : c < 8 := by simp at hc; omega
    have e : ((spriteColumn cx c).val + 64 - cx % 64) % 64 = c := by
      simp only [spriteColumn, Fin.ofNat]
      omega
    rw [e]
    exact ⟨hc8, hb⟩
  · rintro ⟨hc, hb⟩
    refine ⟨(px.val + 64 - cx % 64) % 64, by simp; omega, hb, ?_⟩
    apply Fin.ext
    simp only [spriteColumn, Fin.ofNat]
    omega

theorem spriteHits_iff (cx cy r : Nat) (bs : List Byte) (py : Fin 32) (px : Fin 64) :
    spriteHits cx cy r bs py px = true ↔
      ∃ k b, bs[k]? = some b ∧ py = spriteRow cy (r + k) ∧
        rowHits cx b [0, 1, 2, 3, 4, 5, 6, 7] px = true := by
  induction bs generalizing r with
  | nil => simp [spriteHits]
  | cons b bs ih =>
    rw [show spriteHits cx cy r (b :: bs) py px =
      ((py == spriteRow cy r && rowHits cx b [0, 1, 2, 3, 4, 5, 6, 7] px) ||
        spriteHits cx cy (r + 1) bs py px) from rfl, Bool.or_eq_true, Bool.and_eq_true, beq_iff_eq, ih]
    constructor
    · rintro (⟨hy, hx⟩ | ⟨k, b', hb', hy, hx⟩)
      · exact ⟨0, b, rfl, hy, hx⟩
      · exact ⟨k + 1, b', hb', by rw [hy]; congr 1; omega, hx⟩
    · rintro ⟨k, b', hb', hy, hx⟩
      cases k with
      | zero =>
        obtain rfl : b = b' := by simpa using hb'
        exact .inl ⟨hy, hx⟩
      | succ k => exact .inr ⟨k, b', hb', by rw [hy]; congr 1; omega, hx⟩

/-- The pixels the walk over the sprite's bytes toggles are those `drawnAt` names. -/
theorem spriteHits_eq_drawnAt (s : State) (cx cy : Byte) (n : Nibble) (py : Fin 32) (px : Fin 64) :
    spriteHits cx.toNat cy.toNat 0 (spriteBytes s n) py px = drawnAt s cx cy n py px := by
  have hn : n.toNat < 16 := n.isLt
  rw [Bool.eq_iff_iff, spriteHits_iff]
  simp only [drawnAt, Bool.and_eq_true, decide_eq_true_eq, spriteBytes, rowHits_iff]
  constructor
  · rintro ⟨k, b, hb, hy, h8, hbit⟩
    have hk : k < n.toNat := by
      by_contra hk
      rw [List.getElem?_eq_none (by simp; omega)] at hb
      cases hb
    rw [Memory.readBytes_getElem? _ _ _ _ hk] at hb
    obtain rfl := Option.some.inj hb
    have e : (py.val + 32 - cy.toNat % 32) % 32 = k := by
      rw [hy]
      simp only [spriteRow, Fin.ofNat]
      omega
    rw [e]
    exact ⟨⟨hk, h8⟩, hbit⟩
  · rintro ⟨⟨hr, h8⟩, hbit⟩
    refine ⟨_, _, Memory.readBytes_getElem? _ _ _ _ hr, ?_, h8, hbit⟩
    apply Fin.ext
    simp only [spriteRow, Fin.ofNat]
    omega

/-- A whole sprite drawn on a framebuffer: the pixels `drawnAt` names are toggled, and the collision is set
exactly if one of them was on. -/
theorem drawSprite_pixel (s : State) (cx cy : Byte) (n : Nibble) (f : Framebuffer) :
    (∀ y x, (drawSprite cx cy (spriteBytes s n) f).1.pixel y x =
      (f.pixel y x ^^ drawnAt s cx cy n y x)) ∧
    ((drawSprite cx cy (spriteBytes s n) f).2 = true ↔
      ∃ y x, drawnAt s cx cy n y x = true ∧ f.pixel y x = true) := by
  have hn : n.toNat < 16 := n.isLt
  have h := drawRows_pixel cx.toNat cy.toNat 0 (spriteBytes s n)
    (by simp [spriteBytes]; omega) (f, false)
  simpa only [drawSprite, spriteHits_eq_drawnAt, Bool.false_eq_true, false_or] using h

end Sys2Proof.Machine
end

