-- ==== Sys2Proof/Laws/Frames.lean ====
section
/-! SUPPORT. What each end of a meaning leaves unchanged (`Frame`, Safety.lean), and the widths of the values
it writes. -/

namespace Sys2Proof.Machine

variable (s : State)

/-- Moving pc changes nothing else. -/
theorem frame_pc (w : Word) : Frame [] [] s (s.setPc w) := by
  constructor <;> intros <;> simp

theorem frame_jump (w : Word) : Frame [] [] s (s.advance.setPc w) := by
  constructor <;> intros <;> simp

theorem frame_skip (c : Bool) : Frame [] [] s (s.advance.skipIf c) := by
  constructor <;> intros <;> simp

theorem frame_writeReg (x : Reg) (b : Byte) : Frame [x] [] s (s.advance.setReg x b) := by
  constructor
  case reg => intro k hk; simp [reg_setReg_ne _ (List.ne_of_not_mem_cons hk)]
  all_goals intros; simp

theorem frame_writeRegFlag (x : Reg) (r b : Byte) :
    Frame [x, regVF] [] s (s.advance.setRegFlag x r b) := by
  constructor
  case reg =>
    intro k hk
    simp only [List.mem_cons, List.not_mem_nil, or_false, not_or] at hk
    simp [reg_setRegFlag_other _ hk.1 hk.2]
  all_goals intros; simp

theorem frame_writeI (v : Word) : Frame [] [.index] s (s.advance.setI v) := by
  constructor
  case index => intro h; simp at h
  all_goals intros; simp

theorem frame_setDT (b : Byte) : Frame [] [.delay] s (s.advance.setDT b) := by
  constructor
  case delay => intro h; simp at h
  all_goals intros; simp

theorem frame_setST (b : Byte) : Frame [] [.sound] s (s.advance.setST b) := by
  constructor
  case sound => intro h; simp at h
  all_goals intros; simp

theorem frame_setMem (m : Memory) : Frame [] [.memory] s (s.advance.setMem m) := by
  constructor
  case memory => intro h; simp at h
  all_goals intros; simp

theorem frame_setFb (f : Framebuffer) : Frame [] [.frame] s (s.advance.setFb f) := by
  constructor
  case frame => intro h; simp at h
  all_goals intros; simp

theorem frame_drawing (f : Framebuffer) (b : Byte) :
    Frame [regVF] [.frame] s ((s.advance.setFb f).setReg regVF b) := by
  constructor
  case reg => intro k hk; simp [reg_setReg_ne _ (List.ne_of_not_mem_cons hk)]
  case frame => intro h; simp at h
  all_goals intros; simp

theorem frame_random (x : Reg) (b : Byte) :
    Frame [x] [.draws] s ((s.advance.setReg x b).countDraw) := by
  constructor
  case reg => intro k hk; simp [reg_setReg_ne _ (List.ne_of_not_mem_cons hk)]
  case draws => intro h; simp at h
  all_goals intros; simp

theorem frame_push (v w : Word) (h : s.advance.sp.toNat < 16) :
    Frame [] [.stack] s ((s.advance.push v h).setPc w) := by
  constructor
  case stack => intro h; simp at h
  all_goals intros; simp

theorem frame_pop (w : Word) : Frame [] [.stack] s (s.advance.pop.setPc w) := by
  constructor
  case stack => intro h; simp at h
  all_goals intros; simp

theorem frame_loadRegs (a : Nat) (x : Reg) :
    Frame (regsUpTo x) [] s (loadRegList a s.advance (regsUpTo x)) := by
  constructor
  case reg => intro k hk; simp [reg_loadRegList, hk]
  all_goals intros; rw [loadRegList_eq]; simp

/-! Values. -/

@[simp] theorem mod256_toNat (t : Nat) : (mod256 t).toNat = t % 256 := by simp [mod256]

@[simp] theorem zext16_toNat (nnn : Addr) : (zext16 nnn).toNat = nnn.toNat := by
  have := nnn.isLt
  simp only [zext16, BitVec.toNat_setWidth]
  omega

@[simp] theorem jumpV0Target_toNat (nnn : Addr) (b : Byte) :
    (jumpV0Target nnn b).toNat = nnn.toNat + b.toNat := by
  have := nnn.isLt
  have := b.isLt
  simp only [jumpV0Target, BitVec.toNat_ofNat]
  omega

@[simp] theorem glyphAddress_toNat (b : Byte) : (glyphAddress b).toNat = b.toNat * 5 := by
  have := b.isLt
  simp only [glyphAddress, BitVec.toNat_ofNat]
  omega

@[simp] theorem indexSum_toNat (i : Word) (b : Byte) :
    (indexSum i b).toNat = (i.toNat + b.toNat) % 65536 := by
  simp [indexSum]

theorem tickTimer_toNat (b : Byte) : (tickTimer b).toNat = b.toNat - 1 := by
  unfold tickTimer
  split
  · rename_i h; subst h; rfl
  · rename_i h
    have hb := b.isLt
    have h0 : b.toNat ≠ 0 := fun e => h (BitVec.eq_of_toNat_eq (by simpa using e))
    rw [BitVec.toNat_sub]
    simp
    omega

end Sys2Proof.Machine
end

