-- ==== Sys2Proof/Laws/PerInstr.lean ====
section
/-! SUPPORT. Statements made per instruction. The family `EncodesToOwnRow`: the opcode an instruction is encoded
to is well formed and selects its own row of the table and no other (spec/30_encoding.md R91, R92, R97). -/

namespace Sys2Proof.Laws.EncodesToOwnRow

/-- The encoding of `i` selects exactly the row of `i`'s pattern, and `i`'s operand values are in range. -/
def Statement (i : Instr) : Prop := i.wellFormed = true ∧ matchingRows (encode i) = [i.row]

theorem cls : Statement .cls := ⟨rfl, by decide⟩

theorem ret : Statement .ret := ⟨rfl, by decide⟩

theorem jp (nnn : Addr) : Statement (.jp nnn) :=
  ⟨wellFormed_instr _, by
    simp +decide [encode, Instr.row, matchingRows, opcodeTable, opcodeRowsLow, opcodeRowsMid,
      opcodeRowsHigh, selects_F000, selects_F00F, selects_F0FF, selects_FFFF]⟩

theorem call (nnn : Addr) : Statement (.call nnn) :=
  ⟨wellFormed_instr _, by
    simp +decide [encode, Instr.row, matchingRows, opcodeTable, opcodeRowsLow, opcodeRowsMid,
      opcodeRowsHigh, selects_F000, selects_F00F, selects_F0FF, selects_FFFF]⟩

theorem seImm (x : Reg) (kk : Byte) : Statement (.seImm x kk) :=
  ⟨wellFormed_instr _, by
    simp +decide [encode, Instr.row, matchingRows, opcodeTable, opcodeRowsLow, opcodeRowsMid,
      opcodeRowsHigh, selects_F000, selects_F00F, selects_F0FF, selects_FFFF]⟩

theorem sneImm (x : Reg) (kk : Byte) : Statement (.sneImm x kk) :=
  ⟨wellFormed_instr _, by
    simp +decide [encode, Instr.row, matchingRows, opcodeTable, opcodeRowsLow, opcodeRowsMid,
      opcodeRowsHigh, selects_F000, selects_F00F, selects_F0FF, selects_FFFF]⟩

theorem seReg (x y : Reg) : Statement (.seReg x y) :=
  ⟨wellFormed_instr _, by
    simp +decide [encode, Instr.row, matchingRows, opcodeTable, opcodeRowsLow, opcodeRowsMid,
      opcodeRowsHigh, selects_F000, selects_F00F, selects_F0FF, selects_FFFF]⟩

theorem ldImm (x : Reg) (kk : Byte) : Statement (.ldImm x kk) :=
  ⟨wellFormed_instr _, by
    simp +decide [encode, Instr.row, matchingRows, opcodeTable, opcodeRowsLow, opcodeRowsMid,
      opcodeRowsHigh, selects_F000, selects_F00F, selects_F0FF, selects_FFFF]⟩

theorem addImm (x : Reg) (kk : Byte) : Statement (.addImm x kk) :=
  ⟨wellFormed_instr _, by
    simp +decide [encode, Instr.row, matchingRows, opcodeTable, opcodeRowsLow, opcodeRowsMid,
      opcodeRowsHigh, selects_F000, selects_F00F, selects_F0FF, selects_FFFF]⟩

theorem ldReg (x y : Reg) : Statement (.ldReg x y) :=
  ⟨wellFormed_instr _, by
    simp +decide [encode, Instr.row, matchingRows, opcodeTable, opcodeRowsLow, opcodeRowsMid,
      opcodeRowsHigh, selects_F000, selects_F00F, selects_F0FF, selects_FFFF]⟩

theorem orReg (x y : Reg) : Statement (.orReg x y) :=
  ⟨wellFormed_instr _, by
    simp +decide [encode, Instr.row, matchingRows, opcodeTable, opcodeRowsLow, opcodeRowsMid,
      opcodeRowsHigh, selects_F000, selects_F00F, selects_F0FF, selects_FFFF]⟩

theorem andReg (x y : Reg) : Statement (.andReg x y) :=
  ⟨wellFormed_instr _, by
    simp +decide [encode, Instr.row, matchingRows, opcodeTable, opcodeRowsLow, opcodeRowsMid,
      opcodeRowsHigh, selects_F000, selects_F00F, selects_F0FF, selects_FFFF]⟩

theorem xorReg (x y : Reg) : Statement (.xorReg x y) :=
  ⟨wellFormed_instr _, by
    simp +decide [encode, Instr.row, matchingRows, opcodeTable, opcodeRowsLow, opcodeRowsMid,
      opcodeRowsHigh, selects_F000, selects_F00F, selects_F0FF, selects_FFFF]⟩

theorem addReg (x y : Reg) : Statement (.addReg x y) :=
  ⟨wellFormed_instr _, by
    simp +decide [encode, Instr.row, matchingRows, opcodeTable, opcodeRowsLow, opcodeRowsMid,
      opcodeRowsHigh, selects_F000, selects_F00F, selects_F0FF, selects_FFFF]⟩

theorem subReg (x y : Reg) : Statement (.subReg x y) :=
  ⟨wellFormed_instr _, by
    simp +decide [encode, Instr.row, matchingRows, opcodeTable, opcodeRowsLow, opcodeRowsMid,
      opcodeRowsHigh, selects_F000, selects_F00F, selects_F0FF, selects_FFFF]⟩

theorem shr (x y : Reg) : Statement (.shr x y) :=
  ⟨wellFormed_instr _, by
    simp +decide [encode, Instr.row, matchingRows, opcodeTable, opcodeRowsLow, opcodeRowsMid,
      opcodeRowsHigh, selects_F000, selects_F00F, selects_F0FF, selects_FFFF]⟩

theorem subnReg (x y : Reg) : Statement (.subnReg x y) :=
  ⟨wellFormed_instr _, by
    simp +decide [encode, Instr.row, matchingRows, opcodeTable, opcodeRowsLow, opcodeRowsMid,
      opcodeRowsHigh, selects_F000, selects_F00F, selects_F0FF, selects_FFFF]⟩

theorem shl (x y : Reg) : Statement (.shl x y) :=
  ⟨wellFormed_instr _, by
    simp +decide [encode, Instr.row, matchingRows, opcodeTable, opcodeRowsLow, opcodeRowsMid,
      opcodeRowsHigh, selects_F000, selects_F00F, selects_F0FF, selects_FFFF]⟩

theorem sneReg (x y : Reg) : Statement (.sneReg x y) :=
  ⟨wellFormed_instr _, by
    simp +decide [encode, Instr.row, matchingRows, opcodeTable, opcodeRowsLow, opcodeRowsMid,
      opcodeRowsHigh, selects_F000, selects_F00F, selects_F0FF, selects_FFFF]⟩

theorem ldI (nnn : Addr) : Statement (.ldI nnn) :=
  ⟨wellFormed_instr _, by
    simp +decide [encode, Instr.row, matchingRows, opcodeTable, opcodeRowsLow, opcodeRowsMid,
      opcodeRowsHigh, selects_F000, selects_F00F, selects_F0FF, selects_FFFF]⟩

theorem jpV0 (nnn : Addr) : Statement (.jpV0 nnn) :=
  ⟨wellFormed_instr _, by
    simp +decide [encode, Instr.row, matchingRows, opcodeTable, opcodeRowsLow, opcodeRowsMid,
      opcodeRowsHigh, selects_F000, selects_F00F, selects_F0FF, selects_FFFF]⟩

theorem rnd (x : Reg) (kk : Byte) : Statement (.rnd x kk) :=
  ⟨wellFormed_instr _, by
    simp +decide [encode, Instr.row, matchingRows, opcodeTable, opcodeRowsLow, opcodeRowsMid,
      opcodeRowsHigh, selects_F000, selects_F00F, selects_F0FF, selects_FFFF]⟩

theorem drw (x y : Reg) (n : Nibble) : Statement (.drw x y n) :=
  ⟨wellFormed_instr _, by
    simp +decide [encode, Instr.row, matchingRows, opcodeTable, opcodeRowsLow, opcodeRowsMid,
      opcodeRowsHigh, selects_F000, selects_F00F, selects_F0FF, selects_FFFF]⟩

theorem skp (x : Reg) : Statement (.skp x) :=
  ⟨wellFormed_instr _, by
    simp +decide [encode, Instr.row, matchingRows, opcodeTable, opcodeRowsLow, opcodeRowsMid,
      opcodeRowsHigh, selects_F000, selects_F00F, selects_F0FF, selects_FFFF]⟩

theorem sknp (x : Reg) : Statement (.sknp x) :=
  ⟨wellFormed_instr _, by
    simp +decide [encode, Instr.row, matchingRows, opcodeTable, opcodeRowsLow, opcodeRowsMid,
      opcodeRowsHigh, selects_F000, selects_F00F, selects_F0FF, selects_FFFF]⟩

theorem ldVxDT (x : Reg) : Statement (.ldVxDT x) :=
  ⟨wellFormed_instr _, by
    simp +decide [encode, Instr.row, matchingRows, opcodeTable, opcodeRowsLow, opcodeRowsMid,
      opcodeRowsHigh, selects_F000, selects_F00F, selects_F0FF, selects_FFFF]⟩

theorem ldVxK (x : Reg) : Statement (.ldVxK x) :=
  ⟨wellFormed_instr _, by
    simp +decide [encode, Instr.row, matchingRows, opcodeTable, opcodeRowsLow, opcodeRowsMid,
      opcodeRowsHigh, selects_F000, selects_F00F, selects_F0FF, selects_FFFF]⟩

theorem ldDTVx (x : Reg) : Statement (.ldDTVx x) :=
  ⟨wellFormed_instr _, by
    simp +decide [encode, Instr.row, matchingRows, opcodeTable, opcodeRowsLow, opcodeRowsMid,
      opcodeRowsHigh, selects_F000, selects_F00F, selects_F0FF, selects_FFFF]⟩

theorem ldSTVx (x : Reg) : Statement (.ldSTVx x) :=
  ⟨wellFormed_instr _, by
    simp +decide [encode, Instr.row, matchingRows, opcodeTable, opcodeRowsLow, opcodeRowsMid,
      opcodeRowsHigh, selects_F000, selects_F00F, selects_F0FF, selects_FFFF]⟩

theorem addIVx (x : Reg) : Statement (.addIVx x) :=
  ⟨wellFormed_instr _, by
    simp +decide [encode, Instr.row, matchingRows, opcodeTable, opcodeRowsLow, opcodeRowsMid,
      opcodeRowsHigh, selects_F000, selects_F00F, selects_F0FF, selects_FFFF]⟩

theorem ldFVx (x : Reg) : Statement (.ldFVx x) :=
  ⟨wellFormed_instr _, by
    simp +decide [encode, Instr.row, matchingRows, opcodeTable, opcodeRowsLow, opcodeRowsMid,
      opcodeRowsHigh, selects_F000, selects_F00F, selects_F0FF, selects_FFFF]⟩

theorem ldBVx (x : Reg) : Statement (.ldBVx x) :=
  ⟨wellFormed_instr _, by
    simp +decide [encode, Instr.row, matchingRows, opcodeTable, opcodeRowsLow, opcodeRowsMid,
      opcodeRowsHigh, selects_F000, selects_F00F, selects_F0FF, selects_FFFF]⟩

theorem storeRegs (x : Reg) : Statement (.storeRegs x) :=
  ⟨wellFormed_instr _, by
    simp +decide [encode, Instr.row, matchingRows, opcodeTable, opcodeRowsLow, opcodeRowsMid,
      opcodeRowsHigh, selects_F000, selects_F00F, selects_F0FF, selects_FFFF]⟩

theorem loadRegs (x : Reg) : Statement (.loadRegs x) :=
  ⟨wellFormed_instr _, by
    simp +decide [encode, Instr.row, matchingRows, opcodeTable, opcodeRowsLow, opcodeRowsMid,
      opcodeRowsHigh, selects_F000, selects_F00F, selects_F0FF, selects_FFFF]⟩

end Sys2Proof.Laws.EncodesToOwnRow
end

