-- ==== Sys2Proof/Laws/Exec.lean ====
section
/-! SUPPORT. What each meaning can do, and from that what any completed instruction can do. -/

namespace Sys2Proof.Machine

/-- Every instruction's word selects its own row, and no other (R91, R92). -/
theorem matchingRows_encode : ∀ i : Instr, matchingRows (encode i) = [i.row]
  | .cls => (Laws.EncodesToOwnRow.cls).2
  | .ret => (Laws.EncodesToOwnRow.ret).2
  | .jp a => (Laws.EncodesToOwnRow.jp a).2
  | .call a => (Laws.EncodesToOwnRow.call a).2
  | .seImm a b => (Laws.EncodesToOwnRow.seImm a b).2
  | .sneImm a b => (Laws.EncodesToOwnRow.sneImm a b).2
  | .seReg a b => (Laws.EncodesToOwnRow.seReg a b).2
  | .ldImm a b => (Laws.EncodesToOwnRow.ldImm a b).2
  | .addImm a b => (Laws.EncodesToOwnRow.addImm a b).2
  | .ldReg a b => (Laws.EncodesToOwnRow.ldReg a b).2
  | .orReg a b => (Laws.EncodesToOwnRow.orReg a b).2
  | .andReg a b => (Laws.EncodesToOwnRow.andReg a b).2
  | .xorReg a b => (Laws.EncodesToOwnRow.xorReg a b).2
  | .addReg a b => (Laws.EncodesToOwnRow.addReg a b).2
  | .subReg a b => (Laws.EncodesToOwnRow.subReg a b).2
  | .shr a b => (Laws.EncodesToOwnRow.shr a b).2
  | .subnReg a b => (Laws.EncodesToOwnRow.subnReg a b).2
  | .shl a b => (Laws.EncodesToOwnRow.shl a b).2
  | .sneReg a b => (Laws.EncodesToOwnRow.sneReg a b).2
  | .ldI a => (Laws.EncodesToOwnRow.ldI a).2
  | .jpV0 a => (Laws.EncodesToOwnRow.jpV0 a).2
  | .rnd a b => (Laws.EncodesToOwnRow.rnd a b).2
  | .drw a b c => (Laws.EncodesToOwnRow.drw a b c).2
  | .skp a => (Laws.EncodesToOwnRow.skp a).2
  | .sknp a => (Laws.EncodesToOwnRow.sknp a).2
  | .ldVxDT a => (Laws.EncodesToOwnRow.ldVxDT a).2
  | .ldVxK a => (Laws.EncodesToOwnRow.ldVxK a).2
  | .ldDTVx a => (Laws.EncodesToOwnRow.ldDTVx a).2
  | .ldSTVx a => (Laws.EncodesToOwnRow.ldSTVx a).2
  | .addIVx a => (Laws.EncodesToOwnRow.addIVx a).2
  | .ldFVx a => (Laws.EncodesToOwnRow.ldFVx a).2
  | .ldBVx a => (Laws.EncodesToOwnRow.ldBVx a).2
  | .storeRegs a => (Laws.EncodesToOwnRow.storeRegs a).2
  | .loadRegs a => (Laws.EncodesToOwnRow.loadRegs a).2

/-- Every instruction's word carries the pattern of its row (R91). -/
theorem hasPattern_row (i : Instr) : HasPattern i i.row.mask i.row.value := by
  have h : i.row ∈ matchingRows (encode i) := by rw [matchingRows_encode]; exact List.mem_singleton_self _
  exact eq_of_beq (List.mem_filter.mp h).2

/-- What 00EE can do (R101; log 7). -/
theorem execRet_cases (s : State) :
    (s.sp.toNat = 0 ∧ execRet s = .fault (.raised ⟨.stackUnderflow, some (encode .ret), s.pc⟩)) ∨
    (∃ j : Fin 16, s.sp.toNat = j.val + 1 ∧ execRet s =
      .next (s.advance.pop.setPc (s.stack.get j))) ∨
    (16 < s.sp.toNat ∧ execRet s = .fault (.illegalStackPointer s.sp)) := by
  unfold execRet
  split
  · rename_i h; exact .inl ⟨by simp [h], rfl⟩
  · rename_i h
    have h0 : s.sp.toNat ≠ 0 := fun e => h (BitVec.eq_of_toNat_eq (by simpa using e))
    have hb := s.sp.isLt
    have e : (s.sp - 1).toNat = s.sp.toNat - 1 := by rw [BitVec.toNat_sub]; simp; omega
    dsimp only
    split
    · rename_i h16
      simp only [pop_sp, advance_sp, e] at h16
      refine .inr (.inl ⟨⟨s.sp.toNat - 1, h16⟩, by simp; omega, ?_⟩)
      simp only [pop_sp, advance_sp, e, pop_stack, advance_stack, Vector.get_eq_getElem]
    · rename_i h16
      simp only [pop_sp, advance_sp, e] at h16
      exact .inr (.inr ⟨by omega, rfl⟩)

/-- What 2nnn can do (R102; log 7). -/
theorem execCall_cases (nnn : Addr) (s : State) :
    (∃ h : s.advance.sp.toNat < 16, execCall nnn s =
      .next ((s.advance.push (s.pc + 2) h).setPc (zext16 nnn))) ∨
    (s.sp.toNat = 16 ∧ execCall nnn s =
      .fault (.raised ⟨.stackOverflow, some (encode (.call nnn)), s.pc⟩)) ∨
    (16 < s.sp.toNat ∧ execCall nnn s = .fault (.illegalStackPointer s.sp)) := by
  unfold execCall
  split
  · rename_i h; exact .inl ⟨h, rfl⟩
  · rename_i h
    simp only [advance_sp] at h
    split
    · rename_i h16; exact .inr (.inl ⟨by simp [h16], rfl⟩)
    · rename_i h16
      have : s.sp.toNat ≠ 16 := fun e => h16 (BitVec.eq_of_toNat_eq (by simpa using e))
      exact .inr (.inr ⟨by omega, rfl⟩)

/-- What Ex9E and ExA1 can do (R190, R191). -/
theorem skipOnKey_cases (i : Instr) (want : Bool) (x : Reg) (s : State) :
    (∃ k : Reg, (s.reg x).toNat = k.val ∧ skipOnKey i want x s =
      .next (s.advance.skipIf (s.key k == want))) ∨
    (16 ≤ (s.reg x).toNat ∧ skipOnKey i want x s =
      .fault (.raised ⟨.keyIndexOutOfRange, some (encode i), s.pc⟩)) := by
  unfold skipOnKey
  rcases keyNumber_cases (s.reg x) with ⟨k, h, e⟩ | ⟨h, e⟩
  · exact .inl ⟨k, h, by rw [e]; rfl⟩
  · exact .inr ⟨h, by rw [e]; rfl⟩

/-- What Fx65 can do (R155). -/
theorem execLoadRegs_cases (x : Reg) (s : State) :
    (s.I.toNat + x.val < 4096 ∧ execLoadRegs x s =
      .next (loadRegList s.I.toNat s.advance (regsUpTo x))) ∨
    (4096 ≤ s.I.toNat + x.val ∧ execLoadRegs x s =
      .fault (.raised ⟨.memReadOutOfBounds, some (encode (.loadRegs x)), s.pc⟩)) := by
  unfold execLoadRegs
  split
  · rename_i h; rw [inBounds_iff] at h; exact .inl ⟨by omega, rfl⟩
  · rename_i h; rw [inBounds_iff] at h; exact .inr ⟨by omega, rfl⟩

/-- What Dxyn can do (R171). -/
theorem execDrw_cases (x y : Reg) (n : Nibble) (s : State) :
    (SpriteReadable s n ∧ execDrw x y n s =
      writeDrawing (drawSprite (s.reg x) (s.reg y) (spriteBytes s n) s.fb) s) ∨
    (¬ SpriteReadable s n ∧ execDrw x y n s =
      .fault (.raised ⟨.memReadOutOfBounds, some (encode (.drw x y n)), s.pc⟩)) := by
  unfold execDrw SpriteReadable Config.memSize
  split
  · rename_i h; rw [inBounds_iff] at h; exact .inl ⟨by omega, rfl⟩
  · rename_i h; rw [inBounds_iff] at h; exact .inr ⟨by omega, rfl⟩

/-! The parametrised machine (R11) and the machine under the defaults. -/

/-- Under the defaults of R11 the parametrised execute phase is `exec`. -/
theorem execUnder_default (i : Instr) (s : State) : execUnder defaultParameters i s = exec i s := by
  cases i <;> rfl

theorem stepUnder_default (s : State) : stepUnder defaultParameters s = step s := by
  unfold stepUnder step
  rw [show execUnder defaultParameters = exec from funext fun i => funext (execUnder_default i)]

/-- What a cycle can do: it stops, raises a fetch or decode fault, or executes the fetched instruction. -/
theorem runCycle_cases (execute : Instr → State → Result) (s : State) :
    (∃ r, s.fault = some r ∧ runCycle execute s = .fault (.stopped r)) ∨
    (s.fault = none ∧ fetchWord s = none ∧
      runCycle execute s = .fault (.raised ⟨.fetchOutOfBounds, none, s.pc⟩)) ∨
    (∃ w, s.fault = none ∧ fetchWord s = some w ∧ decode w = .error (.unknownOpcode w) ∧
      runCycle execute s = .fault (.raised ⟨.unknownOpcode, some w, s.pc⟩)) ∨
    (∃ w i, s.fault = none ∧ fetchWord s = some w ∧ decode w = .ok i ∧
      runCycle execute s = execute i s) := by
  unfold runCycle
  cases hf : s.fault with
  | some r => exact .inl ⟨r, rfl, rfl⟩
  | none =>
    cases hw : fetchWord s with
    | none => exact .inr (.inl ⟨rfl, rfl, rfl⟩)
    | some w =>
      cases hd : decode w with
      | ok i => exact .inr (.inr (.inr ⟨w, i, rfl, rfl, hd, by simp [hd]⟩))
      | error e =>
        obtain rfl := decode_error hd
        exact .inr (.inr (.inl ⟨w, rfl, rfl, hd, by simp [hd, raiseDecode, raise]⟩))

/-- The parameters matter to no fault: the four instructions that read them always complete. -/
theorem execUnder_fault_iff {p : Config.Parameters} {i : Instr} {s : State} {f : Fault} :
    execUnder p i s = .fault f ↔ exec i s = .fault f := by
  cases i <;> try exact Iff.rfl
  case shr => exact ⟨nofun, nofun⟩
  case shl => exact ⟨nofun, nofun⟩
  case rnd => exact ⟨nofun, nofun⟩
  case ldVxK x =>
    constructor <;> intro h
    · rcases waitForKey_cases p.keywaitPick x s with ⟨_, e⟩ | ⟨_, _, _, e⟩ <;>
        exact nomatch (show waitForKey p.keywaitPick x s = .fault f from h).symm.trans e
    · rcases waitForKey_cases keywaitPick x s with ⟨_, e⟩ | ⟨_, _, _, e⟩ <;>
        exact nomatch (show waitForKey keywaitPick x s = .fault f from h).symm.trans e

theorem stepUnder_fault_iff {p : Config.Parameters} {s : State} {f : Fault} :
    stepUnder p s = .fault f ↔ step s = .fault f := by
  unfold stepUnder step
  rcases runCycle_cases exec s with ⟨_, hf, _⟩ | ⟨hf, hw, _⟩ | ⟨_, hf, hw, hd, _⟩ | ⟨_, i, hf, hw, hd, _⟩
  · simp only [runCycle, hf]
  · simp only [runCycle, hf, hw]
  · simp only [runCycle, hf, hw, hd]
  · simp only [runCycle, hf, hw, hd]
    exact execUnder_fault_iff

/-- Everything a completed instruction can do, by the shape of its effect: the state it leaves, and which
instructions leave it. -/
def NextCases (i : Instr) (s t : State) : Prop :=
    (∃ w, t = s.advance.setPc w ∧ ((∃ nnn, i = .jp nnn ∧ w = zext16 nnn) ∨
      (∃ nnn, i = .jpV0 nnn ∧ w = jumpV0Target nnn (s.reg 0)))) ∨
    (∃ c, t = s.advance.skipIf c ∧ ((∃ x kk, i = .seImm x kk ∨ i = .sneImm x kk) ∨
      (∃ x y, i = .seReg x y ∨ i = .sneReg x y) ∨ ∃ x, i = .skp x ∨ i = .sknp x)) ∨
    (∃ j : Fin 16, i = .ret ∧ s.sp.toNat = j.val + 1 ∧ t = s.advance.pop.setPc (s.stack.get j)) ∨
    (∃ nnn, i = .call nnn ∧ ∃ h : s.advance.sp.toNat < 16,
      t = (s.advance.push (s.pc + 2) h).setPc (zext16 nnn)) ∨
    (∃ x r, t = s.advance.setReg x r ∧ ((∃ kk, i = .ldImm x kk ∨ i = .addImm x kk) ∨
      (∃ y, i = .ldReg x y ∨ i = .orReg x y ∨ i = .andReg x y ∨ i = .xorReg x y) ∨
      i = .ldVxDT x ∨ i = .ldVxK x)) ∨
    (∃ x r c, t = s.advance.setRegFlag x r c ∧ (c = 0 ∨ c = 1) ∧
      (∃ y, i = .addReg x y ∨ i = .subReg x y ∨ i = .subnReg x y ∨ i = .shr x y ∨ i = .shl x y)) ∨
    (∃ x kk r, i = .rnd x kk ∧ t = (s.advance.setReg x r).countDraw) ∨
    (∃ v, t = s.advance.setI v ∧ ∃ nnn x, i = .ldI nnn ∨ i = .addIVx x ∨ i = .ldFVx x) ∨
    (∃ x, i = .ldDTVx x ∧ t = s.advance.setDT (s.reg x)) ∨
    (∃ x, i = .ldSTVx x ∧ t = s.advance.setST (s.reg x)) ∨
    (∃ bs, t = s.advance.setMem (s.mem.writeBytes s.I.toNat bs) ∧ s.I.toNat + bs.length ≤ 4096 ∧
       ((∃ x, i = .ldBVx x ∧ bs.length = 3) ∨ (∃ x : Reg, i = .storeRegs x ∧ bs.length = x.val + 1))) ∨
    (∃ x, i = .loadRegs x ∧ t = loadRegList s.I.toNat s.advance (regsUpTo x)) ∨
    (i = .cls ∧ t = s.advance.setFb Framebuffer.blank) ∨
    (∃ x y n f c, i = .drw x y n ∧ t = (s.advance.setFb f).setReg regVF c ∧ (c = 0 ∨ c = 1)) ∨
    ((∃ x, i = .ldVxK x) ∧ (∀ k, s.key k = false) ∧ t = s)

/-- What a completed instruction has done, under any parameters. Cite this instead of unfolding the execute
phase. -/
theorem execUnder_next_cases {p : Config.Parameters} {i : Instr} {s t : State}
    (h : execUnder p i s = .next t) : NextCases i s t := by
  unfold NextCases
  have hflag : ∀ c, flagByte c = 0 ∨ flagByte c = 1 := by decide
  have hand : ∀ b : Byte, b &&& 1 = 0 ∨ b &&& 1 = 1 := by decide
  have hshr : ∀ b : Byte, b >>> 7 = 0 ∨ b >>> 7 = 1 := by decide
  cases i <;> simp only [execUnder, exec] at h
  case cls => cases h; simp
  case ret =>
    rcases execRet_cases s with ⟨_, e⟩ | ⟨j, hj, e⟩ | ⟨_, e⟩ <;> rw [e] at h <;> cases h
    exact .inr (.inr (.inl ⟨j, rfl, hj, rfl⟩))
  case call =>
    rcases execCall_cases _ s with ⟨hj, e⟩ | ⟨_, e⟩ | ⟨_, e⟩ <;> rw [e] at h <;> cases h
    exact .inr (.inr (.inr (.inl ⟨_, rfl, hj, rfl⟩)))
  case jp => cases h; exact .inl ⟨_, rfl, by simp⟩
  case jpV0 => cases h; exact .inl ⟨_, rfl, by simp⟩
  case seImm => cases h; exact .inr (.inl ⟨_, rfl, by simp⟩)
  case sneImm => cases h; exact .inr (.inl ⟨_, rfl, by simp⟩)
  case seReg => cases h; exact .inr (.inl ⟨_, rfl, by simp⟩)
  case sneReg => cases h; exact .inr (.inl ⟨_, rfl, by simp⟩)
  case skp =>
    rcases skipOnKey_cases (.skp _) true _ s with ⟨_, _, e⟩ | ⟨_, e⟩ <;>
      rw [execSkp, e] at h <;> cases h
    exact .inr (.inl ⟨_, rfl, by simp⟩)
  case sknp =>
    rcases skipOnKey_cases (.sknp _) false _ s with ⟨_, _, e⟩ | ⟨_, e⟩ <;>
      rw [execSknp, e] at h <;> cases h
    exact .inr (.inl ⟨_, rfl, by simp⟩)
  case ldImm | addImm | ldReg | orReg | andReg | xorReg | ldVxDT =>
    cases h; exact .inr (.inr (.inr (.inr (.inl ⟨_, _, rfl, by simp⟩))))
  case ldVxK =>
    rcases waitForKey_cases p.keywaitPick _ s with ⟨hk, e⟩ | ⟨_, _, _, e⟩ <;>
      rw [e] at h <;> cases h
    · iterate 14 apply Or.inr
      exact ⟨⟨_, rfl⟩, hk, rfl⟩
    · exact .inr (.inr (.inr (.inr (.inl ⟨_, _, rfl, by simp⟩))))
  case addReg | subReg | subnReg =>
    cases h; exact .inr (.inr (.inr (.inr (.inr (.inl ⟨_, _, _, rfl, hflag _, by simp⟩)))))
  case shr => cases h; exact .inr (.inr (.inr (.inr (.inr (.inl ⟨_, _, _, rfl, hand _, by simp⟩)))))
  case shl => cases h; exact .inr (.inr (.inr (.inr (.inr (.inl ⟨_, _, _, rfl, hshr _, by simp⟩)))))
  case rnd =>
    cases h; iterate 6 apply Or.inr
    exact .inl ⟨_, _, _, rfl, rfl⟩
  case ldI | addIVx | ldFVx =>
    cases h; iterate 7 apply Or.inr
    exact .inl ⟨_, rfl, by simp⟩
  case ldDTVx => cases h; simp
  case ldSTVx => cases h; simp
  case ldBVx x =>
    rcases storeBytes_cases (.ldBVx x) (decimalDigits (s.reg x)) s with ⟨hb, e⟩ | ⟨_, e⟩ <;>
      rw [execLdBVx, e] at h <;> cases h
    rw [inBounds_iff] at hb; simp at hb
    iterate 10 apply Or.inr
    exact .inl ⟨_, rfl, by simpa using hb, by simp⟩
  case storeRegs x =>
    rcases storeBytes_cases (.storeRegs x) (regBytes s x) s with ⟨hb, e⟩ | ⟨_, e⟩ <;>
      rw [execStoreRegs, e] at h <;> cases h
    rw [inBounds_iff] at hb; simp at hb
    iterate 10 apply Or.inr
    exact .inl ⟨_, rfl, by simpa using hb, by simp⟩
  case loadRegs x =>
    rcases execLoadRegs_cases x s with ⟨hb, e⟩ | ⟨_, e⟩ <;> rw [e] at h <;> cases h
    simp
  case drw x y n =>
    rcases execDrw_cases x y n s with ⟨hb, e⟩ | ⟨_, e⟩ <;> rw [e] at h <;> cases h
    iterate 13 apply Or.inr
    exact .inl ⟨_, _, _, _, _, rfl, rfl, hflag _⟩

/-- What a completed instruction has done, under the defaults. -/
theorem exec_next_cases {i : Instr} {s t : State} (h : exec i s = .next t) : NextCases i s t :=
  execUnder_next_cases (p := defaultParameters) ((execUnder_default i s).trans h)

end Sys2Proof.Machine
end

