-- ==== Sys2Proof/Laws/Transactions.lean ====
section
/-! SUPPORT. What a CYCLE leaves, and what each transaction of the host can do. Cite these instead of unfolding
`cycle` and `Session.transact`. -/

namespace Sys2Proof.Machine

/-- A CYCLE leaves the next state, or the state before it with the fault it raised. -/
theorem cycle_eq_some {p : Config.Parameters} {s t : State} (h : cycle p s = some t) :
    stepUnder p s = .next t ∨ ∃ r, stepUnder p s = .fault (.raised r) ∧ t = s.withFault r := by
  unfold cycle at h
  split at h
  · rename_i u hu; cases h; exact .inl hu
  · rename_i r hr; cases h; exact .inr ⟨r, hr, rfl⟩
  all_goals cases h

/-- A move that is done is one of the five transactions, with its own effect on the session. -/
theorem transact_done {p : Config.Parameters} {m : Transaction} {h t : Session}
    (hd : h.transact p m = .done t) :
    (∃ u, m = .construct u ∧ t = Session.fresh u h.state.draws) ∨
    (∃ bytes s, m = .load bytes ∧ h.loaded = false ∧ h.started = false ∧ h.state.fault = none ∧
      load bytes h.state = some s ∧ t = { h with state := s, loaded := true }) ∨
    (∃ s, m = .cycle ∧ cycle p h.state = some s ∧ t = { h with state := s, started := true }) ∨
    (∃ s, m = .tick ∧ tick h.state = some s ∧ t = { h with state := s }) ∨
    (∃ k s, m = .keysIn k ∧ keysIn k h.state = some s ∧ t = { h with state := s }) := by
  cases m with
  | construct u => cases hd; exact .inl ⟨u, rfl, rfl⟩
  | load bytes =>
    simp only [Session.transact] at hd
    split at hd
    · cases hd
    · rename_i hc
      simp only [Bool.or_eq_true, not_or, Bool.not_eq_true, Option.isSome_eq_false_iff,
        Option.isNone_iff_eq_none] at hc
      split at hd
      · rename_i s hs
        cases hd
        exact .inr (.inl ⟨bytes, s, rfl, hc.1.1, hc.1.2, hc.2, hs, rfl⟩)
      · cases hd
  | cycle =>
    simp only [Session.transact, Session.moveTo] at hd
    split at hd
    · rename_i s hs; cases hd; exact .inr (.inr (.inl ⟨s, rfl, hs, rfl⟩))
    · cases hd
  | tick =>
    simp only [Session.transact, Session.moveTo] at hd
    split at hd
    · rename_i s hs; cases hd; exact .inr (.inr (.inr (.inl ⟨s, rfl, hs, rfl⟩)))
    · cases hd
  | keysIn k =>
    simp only [Session.transact, Session.moveTo] at hd
    split at hd
    · rename_i s hs; cases hd; exact .inr (.inr (.inr (.inr ⟨k, s, rfl, hs, rfl⟩)))
    · cases hd

/-- A LOAD that fails leaves the session as it was. -/
theorem transact_loadFailed {p : Config.Parameters} {m : Transaction} {h t : Session}
    (hf : h.transact p m = .loadFailed t) :
    t = h ∧ ∃ bytes, m = .load bytes ∧ load bytes h.state = none := by
  cases m with
  | construct u => cases hf
  | load bytes =>
    simp only [Session.transact] at hf
    split at hf
    · cases hf
    · split at hf
      · cases hf
      · rename_i hn; cases hf; exact ⟨rfl, bytes, rfl, hn⟩
  | cycle | tick | keysIn k =>
    simp only [Session.transact, Session.moveTo] at hf
    split at hf <;> cases hf

end Sys2Proof.Machine
end

