-- ==== Sys2Proof/Tests/Slice0.lean ====
section
/-! SUPPORT. The model's own tests. Expected values come from spec/95_test_vectors.md (V and E numbers), from
the encodings of spec/30_encoding.md R91, or from the rule named. Then, for each obligation with
hypotheses, a witness that meets them, at a boundary where there is one. -/

namespace Sys2Proof.Tests

open Sys2Proof.Machine

/-! Well-formedness: a term each check refuses, beside the largest it accepts (R97). -/

theorem test_fields_in_range :
    FieldValues.wellFormed { x := 15, y := 15, n := 15, kk := 255, nnn := 4095 } = true := by decide
theorem test_x_out_of_range : FieldValues.wellFormed { x := 16 } = false := by decide
theorem test_y_out_of_range : FieldValues.wellFormed { y := 16 } = false := by decide
theorem test_n_out_of_range : FieldValues.wellFormed { n := 16 } = false := by decide
theorem test_kk_out_of_range : FieldValues.wellFormed { kk := 256 } = false := by decide
theorem test_nnn_out_of_range : FieldValues.wellFormed { nnn := 4096 } = false := by decide

/-- One ill-formed word of each space of R94: V5 to V14. -/
theorem test_ill_formed_words :
    [0x0000, 0x0123, 0x00E1, 0x5121, 0x9121, 0x8128, 0x800F, 0xE100, 0xF100, 0xFFFF].map
      (fun w => wordWellFormed (BitVec.ofNat 16 w)) = List.replicate 10 false := by decide

theorem test_well_formed_word : wordWellFormed 0x5120#16 = true := by decide

/-- The table has 34 rows, no two of which can select one word (R92): two rows differ at a bit both name. -/
theorem test_rows_never_overlap :
    opcodeTable.length = 34 ∧
      opcodeTable.Pairwise (fun p q => (p.value ^^^ q.value) &&& (p.mask &&& q.mask) ≠ 0) := by decide

/-! Decoding: for each constructor a word written out nibble by nibble from R91's encoding. -/

theorem test_decode_cls : decode 0b0000_0000_1110_0000#16 = .ok .cls := by decide
theorem test_decode_ret : decode 0b0000_0000_1110_1110#16 = .ok .ret := by decide
theorem test_decode_jp : decode 0b0001_1010_1011_1100#16 = .ok (.jp 0xABC#12) := by decide
theorem test_decode_call : decode 0b0010_1010_1011_1100#16 = .ok (.call 0xABC#12) := by decide
theorem test_decode_seImm : decode 0b0011_0001_1010_1011#16 = .ok (.seImm 1 0xAB#8) := by decide
theorem test_decode_sneImm : decode 0b0100_0001_1010_1011#16 = .ok (.sneImm 1 0xAB#8) := by decide
theorem test_decode_seReg : decode 0b0101_0001_0010_0000#16 = .ok (.seReg 1 2) := by decide
theorem test_decode_ldImm : decode 0b0110_0001_1010_1011#16 = .ok (.ldImm 1 0xAB#8) := by decide
theorem test_decode_addImm : decode 0b0111_0001_1010_1011#16 = .ok (.addImm 1 0xAB#8) := by decide
theorem test_decode_ldReg : decode 0b1000_0001_0010_0000#16 = .ok (.ldReg 1 2) := by decide
theorem test_decode_orReg : decode 0b1000_0001_0010_0001#16 = .ok (.orReg 1 2) := by decide
theorem test_decode_andReg : decode 0b1000_0001_0010_0010#16 = .ok (.andReg 1 2) := by decide
theorem test_decode_xorReg : decode 0b1000_0001_0010_0011#16 = .ok (.xorReg 1 2) := by decide
theorem test_decode_addReg : decode 0b1000_0001_0010_0100#16 = .ok (.addReg 1 2) := by decide
theorem test_decode_subReg : decode 0b1000_0001_0010_0101#16 = .ok (.subReg 1 2) := by decide
theorem test_decode_shr : decode 0b1000_0001_0010_0110#16 = .ok (.shr 1 2) := by decide
theorem test_decode_subnReg : decode 0b1000_0001_0010_0111#16 = .ok (.subnReg 1 2) := by decide
theorem test_decode_shl : decode 0b1000_0001_0010_1110#16 = .ok (.shl 1 2) := by decide
theorem test_decode_sneReg : decode 0b1001_0001_0010_0000#16 = .ok (.sneReg 1 2) := by decide
theorem test_decode_ldI : decode 0b1010_1010_1011_1100#16 = .ok (.ldI 0xABC#12) := by decide
theorem test_decode_jpV0 : decode 0b1011_1010_1011_1100#16 = .ok (.jpV0 0xABC#12) := by decide
theorem test_decode_rnd : decode 0b1100_0001_1010_1011#16 = .ok (.rnd 1 0xAB#8) := by decide
theorem test_decode_drw : decode 0b1101_0001_0010_0011#16 = .ok (.drw 1 2 3#4) := by decide
theorem test_decode_skp : decode 0b1110_0001_1001_1110#16 = .ok (.skp 1) := by decide
theorem test_decode_sknp : decode 0b1110_0001_1010_0001#16 = .ok (.sknp 1) := by decide
theorem test_decode_ldVxDT : decode 0b1111_0001_0000_0111#16 = .ok (.ldVxDT 1) := by decide
theorem test_decode_ldVxK : decode 0b1111_0001_0000_1010#16 = .ok (.ldVxK 1) := by decide
theorem test_decode_ldDTVx : decode 0b1111_0001_0001_0101#16 = .ok (.ldDTVx 1) := by decide
theorem test_decode_ldSTVx : decode 0b1111_0001_0001_1000#16 = .ok (.ldSTVx 1) := by decide
theorem test_decode_addIVx : decode 0b1111_0001_0001_1110#16 = .ok (.addIVx 1) := by decide
theorem test_decode_ldFVx : decode 0b1111_0001_0010_1001#16 = .ok (.ldFVx 1) := by decide
theorem test_decode_ldBVx : decode 0b1111_0001_0011_0011#16 = .ok (.ldBVx 1) := by decide
theorem test_decode_storeRegs : decode 0b1111_0001_0101_0101#16 = .ok (.storeRegs 1) := by decide
theorem test_decode_loadRegs : decode 0b1111_0001_0110_0101#16 = .ok (.loadRegs 1) := by decide

/-- R82, R61: the high byte is the one at the lower address; a lone byte is no instruction. -/
theorem test_decode_bytes :
    decodeBytes [0x12#8, 0x34#8, 0xFF#8] = .ok (.jp 0x234#12, [0xFF#8]) ∧
      decodeBytes [0x12#8] = .error .truncated := by decide

/-- The host's own reading of a table word. -/
theorem test_decode_table_word :
    decodeTableWord 16 0x1234 = some (.jp 0x234#12) ∧ decodeTableWord 16 0x5121 = none := by decide

/-! Small states. Each is the reset state with the named changes. -/

/-- The reset state with an opcode at pc. -/
def prog (w : Nat) : State := State.reset.withFetchWord 16 w

/-- The reset state with V1 and V2 set and an opcode at pc. -/
def prog12 (w : Nat) (v1 v2 : Byte) : State := ((prog w).setReg 1 v1).setReg 2 v2

/-- One byte of memory set. -/
def poke (a : Nat) (b : Byte) (s : State) : State := s.setMem (s.mem.write a b)

/-- One key down. -/
def press (k : Reg) (s : State) : State := s.setKeys (s.keys.set k.val true k.isLt)

/-- One pixel on. -/
def light (y : Fin 32) (x : Fin 64) (s : State) : State := s.setFb (s.fb.setPixel y x true)

/-- The cycle completes in a state with `p`. -/
def completes (s : State) (p : State → Bool) : Bool :=
  match step s with
  | .next t => p t
  | .fault _ => false
  | .refused _ => false

/-- The same of one instruction's execute phase. -/
def runs (r : Result) (p : State → Bool) : Bool :=
  match r with
  | .next t => p t
  | .fault _ => false
  | .refused _ => false

/-- The cycle raises this fault. -/
def faults (s : State) (r : FaultRecord) : Bool :=
  match step s with
  | .next _ => false
  | .fault f => f == .raised r
  | .refused _ => false

theorem step_of_faults {s : State} {r : FaultRecord} (h : faults s r = true) :
    step s = .fault (.raised r) := by
  unfold faults at h
  split at h
  · cases h
  · rename_i f hf
    rw [hf, eq_of_beq h]
  · cases h

theorem step_of_completes {s t : State} (h : completes s (fun u => u == t) = true) : step s = .next t := by
  unfold completes at h
  split at h
  · rename_i u hu
    rw [hu, eq_of_beq h]
  · cases h
  · cases h

/-! Reset and fetch. -/

/-- R251, and V5: nothing is loaded, so the first cycle meets opcode 0x0000 (R258). -/
theorem test_reset_first_cycle :
    faults State.reset ⟨.unknownOpcode, some 0x0000, 0x200⟩ = true := by decide

/-- V1: an odd pc is legal. -/
theorem test_fetch_odd_pc :
    completes ((State.reset.setPc 0x201).withFetchWord 16 0x6000) (fun t => t.pc == 0x203) = true := by
  decide

/-- V2: the last fetchable address. -/
theorem test_fetch_last_pc :
    completes ((State.reset.setPc 0xFFE).withFetchWord 16 0x6000) (fun t => t.pc == 0x1000) = true := by
  decide

/-- V3 and V4: no opcode can be fetched. -/
theorem test_fetch_out_of_bounds :
    faults (State.reset.setPc 0xFFF) ⟨.fetchOutOfBounds, none, 0xFFF⟩ = true ∧
      faults (State.reset.setPc 0x1000) ⟨.fetchOutOfBounds, none, 0x1000⟩ = true := by decide

/-! Control flow. -/

/-- V20. -/
theorem test_jp : completes (prog 0x1234) (fun t => t.pc == 0x234) = true := by decide

/-- V24: the last free slot. -/
theorem test_call_last_slot :
    completes { (State.reset.setPc 0x204).withFetchWord 16 0x2300 with sp := 15 }
      (fun t => t.pc == 0x300 && t.sp == 16 && t.stack.get 15 == 0x206) = true := by decide

/-- V25. -/
theorem test_call_overflow :
    faults { (State.reset.setPc 0x204).withFetchWord 16 0x2300 with sp := 16 }
      ⟨.stackOverflow, some 0x2300, 0x204⟩ = true := by decide

/-- V28: the top of a full stack. -/
theorem test_ret_full_stack :
    completes { prog 0x00EE with sp := 16, stack := (Vector.replicate 16 0).set 15 0x400 }
      (fun t => t.pc == 0x400 && t.sp == 15) = true := by decide

/-- V29. -/
theorem test_ret_underflow :
    faults (prog 0x00EE) ⟨.stackUnderflow, some 0x00EE, 0x200⟩ = true := by decide

/-- V30 and V31. -/
theorem test_seImm :
    completes ((prog 0x3012).setReg 0 0x12) (fun t => t.pc == 0x204) = true ∧
      completes ((prog 0x3012).setReg 0 0x13) (fun t => t.pc == 0x202) = true := by decide

/-- V32 and V33. -/
theorem test_sneImm :
    completes ((prog 0x4012).setReg 0 0x12) (fun t => t.pc == 0x202) = true ∧
      completes ((prog 0x4012).setReg 0 0x13) (fun t => t.pc == 0x204) = true := by decide

/-- V34 and V35. -/
theorem test_seReg :
    completes (prog12 0x5120 7 7) (fun t => t.pc == 0x204) = true ∧
      completes (prog12 0x5120 7 8) (fun t => t.pc == 0x202) = true := by decide

/-- V37 and V38. -/
theorem test_sneReg :
    completes (prog12 0x9120 7 7) (fun t => t.pc == 0x202) = true ∧
      completes (prog12 0x9120 7 8) (fun t => t.pc == 0x204) = true := by decide

/-- V39: a skip past the top of memory. -/
theorem test_skip_past_top :
    completes ((State.reset.setPc 0xFFC).withFetchWord 16 0x3000) (fun t => t.pc == 0x1000) = true := by
  decide

/-- V41: the sum is not reduced. -/
theorem test_jpV0_not_reduced :
    completes ((prog 0xBFFF).setReg 0 0xFF) (fun t => t.pc == 0x10FE) = true := by decide

/-! Arithmetic and logic. -/

/-- V51: VF is an ordinary destination. -/
theorem test_ldImm : completes ((prog 0x6F01).setReg 15 0x55) (fun t => t.reg 15 == 0x01) = true := by
  decide

/-- E3: the wrap, and VF untouched. -/
theorem test_addImm_wraps :
    completes (((prog 0x7101).setReg 1 0xFF).setReg 15 0x55)
      (fun t => t.reg 1 == 0x00 && t.reg 15 == 0x55) = true := by decide

/-- V54. -/
theorem test_ldReg : completes (prog12 0x8120 1 2) (fun t => t.reg 1 == 2 && t.reg 2 == 2) = true := by
  decide

/-- V55, with a VF that stays. -/
theorem test_orReg :
    completes ((prog12 0x8121 0xF0 0x0F).setReg 15 7)
      (fun t => t.reg 1 == 0xFF && t.reg 15 == 7) = true := by decide

/-- V56. -/
theorem test_andReg : completes (prog12 0x8122 0xF0 0x3C) (fun t => t.reg 1 == 0x30) = true := by decide

/-- V57. -/
theorem test_xorReg : completes (prog12 0x8123 0xFF 0x0F) (fun t => t.reg 1 == 0xF0) = true := by decide

/-- V59. -/
theorem test_addReg_carry :
    completes (prog12 0x8124 0x80 0x80) (fun t => t.reg 1 == 0 && t.reg 15 == 1) = true := by decide

/-- V62: vy is the old VF. -/
theorem test_addReg_old_flag :
    completes (((prog 0x81F4).setReg 1 1).setReg 15 1)
      (fun t => t.reg 1 == 2 && t.reg 15 == 0) = true := by decide

/-- V64: equal is no borrow. -/
theorem test_subReg_equal :
    completes (prog12 0x8125 7 7) (fun t => t.reg 1 == 0 && t.reg 15 == 1) = true := by decide

/-- V67: VF as the destination holds the flag (C1). -/
theorem test_subReg_into_flag :
    completes (((prog 0x8F15).setReg 15 5).setReg 1 3) (fun t => t.reg 15 == 1) = true := by decide

/-- V69: the other order of operands. -/
theorem test_subnReg_borrow :
    completes (prog12 0x8127 7 5) (fun t => t.reg 1 == 0xFE && t.reg 15 == 0) = true := by decide

/-- V73 under the default SHIFT_SOURCE: Vy is ignored. -/
theorem test_shr : completes (prog12 0x8126 4 0xFF) (fun t => t.reg 1 == 2 && t.reg 15 == 0) = true := by
  decide

/-- V73 under SHIFT_SOURCE = `Vy`. -/
theorem test_shr_from_vy :
    runs (execUnder { defaultParameters with shiftSource := .vy } (.shr 1 2) (prog12 0x8126 4 0xFF))
      (fun t => t.reg 1 == 0x7F && t.reg 15 == 1) = true := by decide

/-- V75. -/
theorem test_shl : completes (prog12 0x810E 0x81 0) (fun t => t.reg 1 == 2 && t.reg 15 == 1) = true := by
  decide

/-- V77: VF as the destination holds the flag (C1). -/
theorem test_shl_into_flag :
    completes ((prog 0x8F0E).setReg 15 0x81) (fun t => t.reg 15 == 1) = true := by decide

/-- V78, with the byte 0xAB on RAND_IN. -/
theorem test_rnd_mask :
    runs (execUnder { defaultParameters with randIn := fun _ => 0xAB } (.rnd 1 0x0F#8) State.reset)
      (fun t => t.reg 1 == 0x0B && t.pc == 0x202) = true := by
  decide

/-- A cycle at a Cxkk completes, whatever is drawn. -/
theorem test_rnd_completes : completes (prog 0xC10F) (fun t => t.pc == 0x202 && t.draws == 1) = true := by
  decide

/-! Index register and memory. -/

/-- V90. -/
theorem test_ldI : completes (prog 0xA123) (fun t => t.I == 0x123) = true := by decide

/-- V92 and V93: no reduction mod 4096, a wrap mod 65536. -/
theorem test_addIVx :
    completes (((prog 0xF11E).setI 0x0FFF).setReg 1 1) (fun t => t.I == 0x1000) = true ∧
      completes (((prog 0xF11E).setI 0xFFFF).setReg 1 1) (fun t => t.I == 0) = true := by decide

/-- V97: vx is not masked. -/
theorem test_ldFVx : completes ((prog 0xF129).setReg 1 0xFF) (fun t => t.I == 0x04FB) = true := by decide

/-- V98, E8. -/
theorem test_ldBVx :
    completes (((prog 0xF133).setI 0x300).setReg 1 156)
      (fun t => t.mem.readBytes 0x300 3 == [1, 5, 6]) = true := by decide

/-- V102. -/
theorem test_ldBVx_out_of_bounds :
    faults (((prog 0xF133).setI 0xFFE).setReg 1 7)
      ⟨.memWriteOutOfBounds, some 0xF133, 0x200⟩ = true := by decide

/-- V103: I is unchanged. -/
theorem test_storeRegs :
    completes ((((prog 0xF155).setI 0x300).setReg 0 0x11).setReg 1 0x22)
      (fun t => t.mem.readBytes 0x300 3 == [0x11, 0x22, 0] && t.I == 0x300) = true := by decide

/-- V106. -/
theorem test_storeRegs_out_of_bounds :
    faults ((prog 0xFF55).setI 0xFF1) ⟨.memWriteOutOfBounds, some 0xFF55, 0x200⟩ = true := by decide

/-- V107: V3 is not loaded. -/
theorem test_loadRegs :
    completes (poke 0x303 9 (poke 0x302 6 (poke 0x301 5 (poke 0x300 1 ((prog 0xF265).setI 0x300)))))
      (fun t => [t.reg 0, t.reg 1, t.reg 2, t.reg 3] == [1, 5, 6, 0] && t.I == 0x300) = true := by decide

/-- V109: a read fault (C2). -/
theorem test_loadRegs_out_of_bounds :
    faults ((prog 0xFF65).setI 0xFF1) ⟨.memReadOutOfBounds, some 0xFF65, 0x200⟩ = true := by
  decide

/-! Graphics. -/

/-- V120. -/
theorem test_cls :
    completes (light 0 0 (light 31 63 (prog 0x00E0)))
      (fun t => !t.fb.pixel 0 0 && !t.fb.pixel 31 63) = true := by decide

/-- V123: the column wraps around the right edge. -/
theorem test_drw_wraps :
    completes (poke 0x300 0xC0 ((prog12 0xD121 63 31).setI 0x300))
      (fun t => t.fb.pixel 31 63 && t.fb.pixel 31 0 && !t.fb.pixel 31 1 && t.reg 15 == 0) = true := by
  decide

/-- V124: two rows, one of them onto a lit pixel. -/
theorem test_drw_collision :
    completes (light 1 0 (poke 0x300 0x80 (poke 0x301 0x80 ((prog 0xD012).setI 0x300))))
      (fun t => t.fb.pixel 0 0 && !t.fb.pixel 1 0 && t.reg 15 == 1) = true := by decide

/-! Keys and timers. -/

/-- V140 and V141. -/
theorem test_skp :
    completes (press 7 ((prog 0xE19E).setReg 1 7)) (fun t => t.pc == 0x204) = true ∧
      completes ((prog 0xE19E).setReg 1 7) (fun t => t.pc == 0x202) = true := by decide

/-- V144. -/
theorem test_skp_no_such_key :
    faults ((prog 0xE19E).setReg 1 16) ⟨.keyIndexOutOfRange, some 0xE19E, 0x200⟩ = true := by
  decide

/-- V142 and V143. -/
theorem test_sknp :
    completes (press 7 ((prog 0xE1A1).setReg 1 7)) (fun t => t.pc == 0x202) = true ∧
      completes ((prog 0xE1A1).setReg 1 7) (fun t => t.pc == 0x204) = true := by decide

/-- V146: the state is exactly as it was. -/
theorem test_ldVxK_waits : completes (prog 0xF10A) (fun t => t == prog 0xF10A) = true := by decide

/-- V148: the lowest of three keys. -/
theorem test_ldVxK_lowest :
    completes (press 9 (press 5 (press 2 (prog 0xF10A))))
      (fun t => t.reg 1 == 2 && t.pc == 0x202) = true := by decide

/-- V150. -/
theorem test_ldVxDT : completes ((prog 0xF107).setDT 0x2A) (fun t => t.reg 1 == 0x2A) = true := by decide

/-- V151. -/
theorem test_ldDTVx : completes ((prog 0xF115).setReg 1 0x3C) (fun t => t.DT == 0x3C) = true := by decide

/-- V152. -/
theorem test_ldSTVx :
    completes ((prog 0xF118).setReg 1 5) (fun t => t.ST == 5 && t.soundOn) = true := by decide

/-- V153 and V154. -/
theorem test_tick :
    (tick (State.reset.setDT 2)).map State.DT = some 1 ∧
      (tick (State.reset.setST 1)).map State.soundOn = some false := by decide

/-- E2: a loaded image is read back in order. -/
theorem test_load :
    (load [0x12, 0x34, 0xAB, 0xCD] State.reset).map (fun t => t.mem.readBytes 0x200 5) =
      some [0x12, 0x34, 0xAB, 0xCD, 0] := by decide

/-- A fault code of each number (R210, D12). -/
theorem test_fault_numbers :
    [FaultCode.fetchOutOfBounds, .unknownOpcode, .stackOverflow, .stackUnderflow, .memReadOutOfBounds,
      .memWriteOutOfBounds, .keyIndexOutOfRange].map FaultCode.number = [1, 2, 3, 4, 5, 6, 7] := by decide

/-! Witnesses: states and operands that meet the hypotheses of the obligations. -/

theorem witness_EncodeUndoesDecode : decode 0xD235#16 = .ok (.drw 2 3 5#4) := by decide

theorem witness_StepRunsDecodedInstruction :
    let s := (State.reset.setPc 0xFFE).withFetchWord 16 0x1234
    s.fault = none ∧ s.pc.toNat + 1 < 4096 ∧
      decode (wordOfBytes (s.mem.read s.pc.toNat) (s.mem.read (s.pc.toNat + 1))) =
        .ok (.jp 0x234#12) := by decide

/-- The two clauses at 0xFFE, and at 0xFFF and 0x1000. -/
theorem witness_FetchIsBoundedAndBigEndian :
    (State.reset.setPc 0xFFF).fault = none ∧ 4096 ≤ (State.reset.setPc 0xFFF).pc.toNat + 1 ∧
      4096 ≤ (State.reset.setPc 0x1000).pc.toNat ∧ (State.reset.setPc 0xFFE).pc.toNat + 1 < 4096 := by
  decide

theorem witness_UnknownOpcodeStopsCycle :
    (prog 0x5121).fault = none ∧ fetchWord (prog 0x5121) = some 0x5121#16 ∧
      matchingRows 0x5121#16 = [] := by decide

theorem witness_FaultedBlockOnlyLeavesByConstruct :
    let r : FaultRecord := ⟨.unknownOpcode, some 0, 0x200⟩
    (State.reset.withFault r).fault = some r ∧
      (Session.mk (State.reset.withFault r) true true).state.fault.isSome = true := by decide

/-- A fetch fault, a decode fault and a fault of an instruction. -/
theorem witness_FaultRecordsArePrecise :
    step (State.reset.setPc 0xFFF) = .fault (.raised ⟨.fetchOutOfBounds, none, 0xFFF⟩) ∧
      step State.reset = .fault (.raised ⟨.unknownOpcode, some 0, 0x200⟩) ∧
      step (prog 0x00EE) = .fault (.raised ⟨.stackUnderflow, some 0x00EE, 0x200⟩) :=
  ⟨step_of_faults (by decide), step_of_faults (by decide), step_of_faults (by decide)⟩

/-- RET with sp = 17 and with sp = 16, and each fault condition at its boundary. -/
theorem witness_OnlyNamedFaultsAreRaised :
    ((Instr.ret = .ret ∨ ∃ nnn, Instr.ret = .call nnn) ∧ 16 < { State.reset with sp := 17 }.sp.toNat) ∧
      ¬ 16 < { State.reset with sp := 16 }.sp.toNat ∧
      ownFault (.call 0#12) { State.reset with sp := 16 } = some .stackOverflow ∧
      ownFault (.call 0#12) { State.reset with sp := 15 } = none ∧
      ownFault (.drw 0 0 1#4) (State.reset.setI 0x1000) = some .memReadOutOfBounds ∧
      ownFault (.drw 0 0 0#4) (State.reset.setI 0x1000) = none :=
  ⟨⟨.inl rfl, by decide⟩, by decide⟩

/-- sp = 0, 1 and 16. -/
theorem witness_ReturnPopsTopSlotIntoPc :
    State.reset.sp.toNat = 0 ∧ { State.reset with sp := 1 }.sp.toNat = (0 : Fin 16).val + 1 ∧
      { State.reset with sp := 16 }.sp.toNat = (15 : Fin 16).val + 1 := by decide

/-- sp = 16, 0 and 15. -/
theorem witness_CallPushesReturnAddress :
    { State.reset with sp := 16 }.sp.toNat = 16 ∧ State.reset.sp.toNat = (0 : Fin 16).val ∧
      { State.reset with sp := 15 }.sp.toNat = (15 : Fin 16).val := by decide

theorem witness_IllegalStackPointerIsStuck : 16 < { State.reset with sp := 17 }.sp.toNat := by decide

theorem witness_ReturnUndoesCall : { State.reset with sp := 15 }.sp.toNat < 16 := by decide

/-- The parameters with the other shift source, the highest key and a fixed input. -/
def otherParameters : Config.Parameters :=
  { shiftSource := .vy, keywaitPick := fun k ks => (k :: ks).getLast (by simp), randIn := fun _ => 0xAB }

/-- Both values of SHIFT_SOURCE, with a destination other than VF. -/
theorem witness_ShiftsFollowShiftSource :
    ((4 : Byte) = (match defaultParameters.shiftSource with
      | .vx => (prog12 0 4 0xFF).reg 1
      | .vy => (prog12 0 4 0xFF).reg 2)) ∧
    ((0xFF : Byte) = (match otherParameters.shiftSource with
      | .vx => (prog12 0 4 0xFF).reg 1
      | .vy => (prog12 0 4 0xFF).reg 2)) ∧ (1 : Reg) ≠ regVF := by decide

theorem witness_StepIsTheMachineUnderTheDefaults :
    (∀ x y, Instr.cls ≠ .shr x y ∧ Instr.cls ≠ .shl x y) ∧ (∀ x kk, Instr.cls ≠ .rnd x kk) ∧
      ∀ x, Instr.cls ≠ .ldVxK x := by
  refine ⟨fun _ _ => ⟨nofun, nofun⟩, fun _ _ => nofun, fun _ => nofun⟩

/-- A flag writer with x = 0xF, and a completed instruction that changes VF as plain data. -/
theorem witness_FlagWritersLeaveZeroOrOne :
    runs (exec (.addReg 15 1) State.reset) (fun _ => true) = true ∧
      runs (exec (.ldImm 15 7#8) State.reset)
        (fun t => t.reg regVF != State.reset.reg regVF) = true := by decide

/-- I = 0xFFE faults and 0xFFD does not. -/
theorem witness_DecimalStoreWritesThreeDigits :
    4096 ≤ (State.reset.setI 0xFFE).I.toNat + 2 ∧ (State.reset.setI 0xFFD).I.toNat + 2 < 4096 := by decide

/-- x = 0xF with I = 0xFF1 and 0xFF0, and every register number at the ends of `k ≤ x`. -/
theorem witness_StoreRegistersWritesV0ToVx :
    4096 ≤ (State.reset.setI 0xFF1).I.toNat + (15 : Reg).val ∧
      (State.reset.setI 0xFF0).I.toNat + (15 : Reg).val < 4096 ∧ (0 : Reg) ≤ 15 ∧ (15 : Reg) ≤ 15 := by
  decide

theorem witness_LoadRegistersReadsV0ToVx :
    4096 ≤ (State.reset.setI 0x1000).I.toNat + (0 : Reg).val ∧
      (State.reset.setI 0xFFF).I.toNat + (0 : Reg).val < 4096 ∧ (0 : Reg) ≤ 0 ∧ (0 : Reg) < 1 := by decide

theorem witness_LoadRegistersUndoesStore :
    runs (exec (.storeRegs 15) (State.reset.setI 0xFF0)) (fun t =>
      decide ((t.setReg 3 9).mem = t.mem ∧ (t.setReg 3 9).I = t.I)) = true := by decide

/-- A store that reaches both bytes at the next pc, the last fetchable one, and one that reaches neither; the
state right after the store is the `u` of the statement. -/
theorem witness_StoredCodeIsFetchedNext :
    runs (exec (.storeRegs 1) ((State.reset.setPc 0xFFC).setI 0xFFE))
        (fun t => decide (t.pc.toNat + 1 < 4096)) = true ∧
      runs (exec (.ldBVx 1) ((State.reset.setPc 0xFFC).setI 0x300))
        (fun t => decide (t.pc.toNat + 1 < 4096)) = true := by decide

/-- n = 0 wherever I is, and the last byte of memory; with and without a collision. -/
theorem witness_DrawTogglesSpritePixels :
    SpriteReadable (State.reset.setI 0xFFFF) 0#4 ∧ SpriteReadable (State.reset.setI 0xFFF) 1#4 ∧
      runs (exec (.drw 0 0 1#4) (light 0 0 State.reset)) (fun t => !t.fb.pixel 0 0) = true := by
  refine ⟨.inl rfl, .inr (by decide), by decide⟩

theorem witness_DrawBeyondMemoryFaults :
    0 < (2#4).toNat ∧ 4096 ≤ (State.reset.setI 0xFFF).I.toNat + (2#4).toNat - 1 ∧
      4096 ≤ (State.reset.setI 0x1000).I.toNat + (1#4).toNat - 1 := by decide

/-- E6: glyph 0 drawn twice onto a blank screen. -/
theorem witness_DrawingTwiceRestoresFramebuffer :
    (1 : Reg) ≠ regVF ∧ (2 : Reg) ≠ regVF ∧
      runs (exec (.drw 1 2 5#4) State.reset) (fun t => t.reg regVF == 0 &&
        runs (exec (.drw 1 2 5#4) t) (fun u => u.reg regVF == 1 && !u.fb.pixel 0 0)) = true := by
  decide

/-- The clause 'onto a blank area': the reset screen is blank, and glyph 0 has a 1-bit at (0, 0). -/
theorem witness_DrawingTwiceRestoresFramebuffer_blank :
    (∀ (py : Fin 32) (px : Fin 64), State.reset.fb.pixel py px = false) ∧
      drawnAt State.reset 0 0 5#4 0 0 = true :=
  ⟨fun _ _ => pixel_blank _ _, by decide⟩

/-- Vx = 15 names a key and Vx = 16 does not. -/
theorem witness_KeySkipsReadKeyVx :
    ((State.reset.setReg 1 15).reg 1).toNat = (15 : Reg).val ∧
      16 ≤ ((State.reset.setReg 1 16).reg 1).toNat := by decide

theorem witness_KeyWaitRetriesUnchanged : (prog 0xF10A).WaitsForKey :=
  ⟨by decide, ⟨1, by decide⟩, by decide⟩

/-- The highest key alone, and the lowest one. -/
theorem witness_KeyWaitTakesLowestPressedKey :
    ((press 15 State.reset).key 15 = true ∧ ∀ j : Reg, j < 15 → (press 15 State.reset).key j = false) ∧
      ((press 0 State.reset).key 0 = true ∧ ∀ j : Reg, j < 0 → (press 0 State.reset).key j = false) := by
  decide

theorem witness_KeyWaitUnderAnyPickTakesPressedKey :
    defaultParameters.Legal ∧ otherParameters.Legal ∧ ∃ k, (press 3 State.reset).key k = true :=
  ⟨fun _ _ => List.mem_cons_self, fun _ _ => List.getLast_mem _, 3, by decide⟩

/-- Another pick than the default one: the highest of V148's three keys. -/
theorem test_ldVxK_other_pick :
    runs (execUnder otherParameters (.ldVxK 1) (press 9 (press 5 (press 2 State.reset))))
      (fun t => t.reg 1 == 9) = true := by decide

theorem witness_TickDecrementsNonzeroTimers :
    (State.reset.withFault ⟨.unknownOpcode, some 0, 0x200⟩).fault.isSome = true ∧
      (State.reset.setDT 1).fault = none := by decide

theorem witness_KeysInOverwritesAllKeys : State.reset.fault = none := rfl

/-- Each writer of a special register, and a draw. -/
theorem witness_SpecialRegistersHaveOnlyTheirWriters :
    runs (exec (.ldI 1#12) State.reset) (fun t => t.I != State.reset.I) = true ∧
      runs (exec (.call 0x300#12) State.reset) (fun t => t.sp != State.reset.sp) = true ∧
      runs (exec (.ldDTVx 1) (State.reset.setReg 1 1)) (fun t => t.DT != State.reset.DT) = true ∧
      runs (exec (.ldSTVx 1) (State.reset.setReg 1 1)) (fun t => t.ST != State.reset.ST) = true ∧
      runs (exec (.rnd 1 0#8) State.reset) (fun t => t.draws != State.reset.draws) = true := by decide

theorem witness_MemoryAndFramebufferHaveOnlyTheirWriters :
    runs (exec (.ldBVx 1) (State.reset.setI 0xFFD))
        (fun t => t.mem.read 0xFFD == State.reset.mem.read 0xFFD) = true ∧
      runs (exec (.storeRegs 0) (State.reset.setReg 0 7))
        (fun t => t.mem.read 0 != State.reset.mem.read 0) = true ∧
      runs (exec (.drw 0 0 1#4) State.reset)
        (fun t => t.fb.pixel 0 0 != State.reset.fb.pixel 0 0) = true := by decide

theorem witness_PcAfterACompletedCycle :
    runs (exec (.jpV0 0xFFF#12) (State.reset.setReg 0 0xFF)) (fun t => t.pc == 0x10FE) = true := by decide

/-- An instruction that completes and one that faults, neither of them Fx07. -/
theorem witness_TimersAreSeenOnlyThroughFx07 :
    (∀ x, Instr.ret ≠ .ldVxDT x) ∧ exec .ret State.reset = faultOutcome .ret .stackUnderflow State.reset ∧
      (∀ x, Instr.cls ≠ .ldVxDT x) ∧ runs (exec .cls State.reset) (fun _ => true) = true :=
  ⟨by decide, rfl, by decide, by decide⟩

/-- A state with a full stack at the ends of the ranges, from which a step completes. -/
theorem witness_StepKeepsInvariants :
    let s : State :=
      { (State.reset.setPc 0xFFE).withFetchWord 16 0x00EE with
        sp := 16, stack := Vector.replicate 16 0x1000 }
    s.Inv ∧ completes s (fun t => t.pc == 0x1000) = true :=
  ⟨⟨by decide, by decide, by decide, by decide⟩, by decide⟩

/-- The invariants at reset, and a run of five transactions from there that the block accepts. -/
theorem witness_HostRunsKeepInvariants :
    State.reset.Inv ∧ (Session.fresh ResetValues.zero 0).state.fault = none ∧
      ((Session.run defaultParameters
        [.load [0x22, 0x00], .keysIn (Vector.replicate 16 true), .tick, .cycle, .cycle]
        ⟨State.reset, false, false⟩).map (fun h => h.state.sp)) = some 2 :=
  ⟨⟨by decide, by decide, by decide, by decide⟩, rfl, by decide⟩

/-- A CONSTRUCT does not rewind the count of drawn bytes (log 4). -/
theorem test_construct_keeps_draws :
    (match Session.transact defaultParameters (.construct ResetValues.zero)
        ⟨{ State.reset with draws := 7 }, true, true⟩ with
      | .done t => some t.state.draws
      | .loadFailed _ => none
      | .noMove => none) = some 7 := rfl

/-- 3584 bytes fit and 3585 do not (E2); the last byte and the first one after the end. -/
theorem witness_LoadCopiesImageOrFailsWhole :
    (List.replicate 3584 (0xAA : Byte)).length ≤ 3584 ∧
      (List.replicate 3584 (0xAA : Byte))[3583]? = some 0xAA ∧
      3584 < (List.replicate 3585 (0xAA : Byte)).length ∧ State.reset.fault = none :=
  ⟨(List.length_replicate ..).le, by rw [List.getElem?_replicate, if_pos (by omega)],
    by rw [List.length_replicate]; omega, rfl⟩

/-- Each premise: a block that has had no LOAD and no CYCLE, one that has had a LOAD, one that has had a
CYCLE, and a move that is no CONSTRUCT. -/
theorem witness_LoadOnlyBeforeFirstCycle :
    State.reset.fault = none ∧ [(0x12 : Byte), 0x00].length ≤ 3584 ∧
      (Session.mk State.reset true false).loaded = true ∧
      (Session.mk State.reset false true).started = true ∧
      Session.transact defaultParameters (.load [0x12, 0x00]) ⟨State.reset, false, false⟩ =
        .done ⟨prog 0x1200, true, false⟩ ∧
      Session.transact defaultParameters .cycle ⟨prog 0x1200, false, false⟩ =
        .done ⟨prog 0x1200, false, true⟩ := by decide

theorem witness_SelfJumpIsAFixedPoint : (prog 0x1200).EndsInSuccess :=
  ⟨by decide, 0x200#12, by decide, by decide⟩

/-- V146 through the host's interface: the core's step is the model's. -/
theorem test_core_step : Sys2Proof.core.step (prog 0xF10A) = .next (prog 0xF10A) :=
  step_of_completes (s := prog 0xF10A) (by decide)

end Sys2Proof.Tests
end

section
/-! SUPPORT. How the whole machine ends a step (spec/60_exceptions.md R210, R211), and why the invariants of
spec/10_state.md R51 hold after every completed instruction and every host transaction; then the statements
of spec/00_scope.md. -/

namespace Sys2Proof.Machine

/-! How an instruction can end (R9). -/

/-- Every instruction, under any parameters, completes and has no fault of R210, raises the fault R210 gives
it, or is a stack access that is stuck on an sp above 16 (log 7). -/
theorem execUnder_outcome (p : Config.Parameters) (i : Instr) (s : State) :
    (∃ t, execUnder p i s = .next t ∧ ownFault i s = none) ∨
    (∃ c, execUnder p i s = faultOutcome i c s ∧ ownFault i s = some c) ∨
    ((i = .ret ∨ ∃ nnn, i = .call nnn) ∧ 16 < s.sp.toNat ∧
      execUnder p i s = .fault (.illegalStackPointer s.sp)) := by
  cases i with
  | ret =>
    rcases execRet_cases s with ⟨h, e⟩ | ⟨j, h, e⟩ | ⟨h, e⟩
    · exact .inr (.inl ⟨_, e, if_pos h⟩)
    · exact .inl ⟨_, e, if_neg (by omega)⟩
    · exact .inr (.inr ⟨.inl rfl, h, e⟩)
  | call nnn =>
    rcases execCall_cases nnn s with ⟨h, e⟩ | ⟨h, e⟩ | ⟨h, e⟩
    · rw [advance_sp] at h
      exact .inl ⟨_, e, if_neg (by omega)⟩
    · exact .inr (.inl ⟨_, e, if_pos h⟩)
    · exact .inr (.inr ⟨.inr ⟨nnn, rfl⟩, h, e⟩)
  | drw x y n =>
    rcases execDrw_cases x y n s with ⟨h, e⟩ | ⟨h, e⟩ <;> unfold SpriteReadable Config.memSize at h
    · exact .inl ⟨_, e, if_neg (by omega)⟩
    · exact .inr (.inl ⟨_, e, if_pos (by omega)⟩)
  | skp x =>
    rcases skipOnKey_cases (.skp x) true x s with ⟨k, h, e⟩ | ⟨h, e⟩
    · exact .inl ⟨_, e, if_neg (by omega)⟩
    · exact .inr (.inl ⟨_, e, if_pos h⟩)
  | sknp x =>
    rcases skipOnKey_cases (.sknp x) false x s with ⟨k, h, e⟩ | ⟨h, e⟩
    · exact .inl ⟨_, e, if_neg (by omega)⟩
    · exact .inr (.inl ⟨_, e, if_pos h⟩)
  | ldVxK x =>
    rcases waitForKey_cases p.keywaitPick x s with ⟨_, e⟩ | ⟨_, _, _, e⟩ <;> exact .inl ⟨_, e, rfl⟩
  | ldBVx x =>
    rcases storeBytes_cases (.ldBVx x) (decimalDigits (s.reg x)) s with ⟨h, e⟩ | ⟨h, e⟩ <;>
      simp only [inBounds_iff, ← Bool.not_eq_true, decimalDigits_length] at h
    · exact .inl ⟨_, e, if_neg (by omega)⟩
    · exact .inr (.inl ⟨_, e, if_pos (by omega)⟩)
  | storeRegs x =>
    rcases storeBytes_cases (.storeRegs x) (regBytes s x) s with ⟨h, e⟩ | ⟨h, e⟩ <;>
      simp only [inBounds_iff, ← Bool.not_eq_true, regBytes_length] at h
    · exact .inl ⟨_, e, if_neg (by omega)⟩
    · exact .inr (.inl ⟨_, e, if_pos (by omega)⟩)
  | loadRegs x =>
    rcases execLoadRegs_cases x s with ⟨h, e⟩ | ⟨h, e⟩
    · exact .inl ⟨_, e, if_neg (by omega)⟩
    · exact .inr (.inl ⟨_, e, if_pos h⟩)
  | _ => exact .inl ⟨_, rfl, rfl⟩

theorem execUnder_ne_refused (p : Config.Parameters) (i : Instr) (s : State) (r : Refusal) :
    execUnder p i s ≠ .refused r := by
  rcases execUnder_outcome p i s with ⟨t, e, _⟩ | ⟨c, e, _⟩ | ⟨_, _, e⟩ <;> rw [e] <;> nofun

/-- A step stops, raises a fault, or executes an instruction fetched in bounds (R85, R86). -/
theorem stepUnder_outcome (p : Config.Parameters) (s : State) :
    (∃ r, stepUnder p s = .fault (.stopped r)) ∨ (∃ r, stepUnder p s = .fault (.raised r)) ∨
    (s.pc.toNat + 1 < 4096 ∧ ∃ i, stepUnder p s = execUnder p i s) := by
  rcases runCycle_cases (execUnder p) s with ⟨r, _, e⟩ | ⟨_, _, e⟩ | ⟨_, _, _, _, e⟩ | ⟨_, i, _, hw, _, e⟩
  · exact .inl ⟨r, e⟩
  · exact .inr (.inl ⟨_, e⟩)
  · exact .inr (.inl ⟨_, e⟩)
  · exact .inr (.inr ⟨pc_lt_of_fetchWord hw, i, e⟩)

theorem stepUnder_ne_refused (p : Config.Parameters) (s : State) (r : Refusal) :
    stepUnder p s ≠ .refused r := by
  rcases stepUnder_outcome p s with ⟨_, e⟩ | ⟨_, e⟩ | ⟨_, i, e⟩ <;> rw [e]
  · nofun
  · nofun
  · exact execUnder_ne_refused p i s r

/-- Only 8xy6, 8xyE, Cxkk and Fx0A read the parameters (R11). -/
theorem execUnder_eq_exec (p : Config.Parameters) {i : Instr} (s : State)
    (hshift : ∀ x y, i ≠ .shr x y ∧ i ≠ .shl x y) (hrnd : ∀ x kk, i ≠ .rnd x kk)
    (hkey : ∀ x, i ≠ .ldVxK x) : execUnder p i s = exec i s := by
  cases i with
  | shr x y => exact absurd rfl (hshift x y).1
  | shl x y => exact absurd rfl (hshift x y).2
  | rnd x kk => exact absurd rfl (hrnd x kk)
  | ldVxK x => exact absurd rfl (hkey x)
  | _ => rfl

theorem defaultParameters_legal : defaultParameters.Legal := fun _ _ => List.mem_cons_self

/-! The invariants of R51 under each operation on the state. -/

section
variable {s t : State}

/-- The invariants see pc, sp, the stack and memory only. -/
theorem State.Inv.of_eq (h : s.Inv) (hpc : t.pc = s.pc) (hsp : t.sp = s.sp) (hstack : t.stack = s.stack)
    (hmem : t.mem = s.mem) : t.Inv where
  sp_le := hsp ▸ h.sp_le
  pc_le := hpc ▸ h.pc_le
  stack_le := by rw [hsp, hstack]; exact h.stack_le
  mem_wf := hmem ▸ h.mem_wf

theorem State.Inv.setPc (h : s.Inv) {w : Word} (hw : w.toNat ≤ maxPc) : (s.setPc w).Inv :=
  ⟨h.sp_le, hw, h.stack_le, h.mem_wf⟩

theorem State.Inv.setMem (h : s.Inv) {m : Memory} (hm : m.wf = true) : (s.setMem m).Inv :=
  ⟨h.sp_le, h.pc_le, h.stack_le, hm⟩

theorem State.Inv.setReg (h : s.Inv) (x : Reg) (b : Byte) : (s.setReg x b).Inv :=
  h.of_eq rfl rfl rfl rfl

/-- The popped slot is no longer counted, and the others are as before (R101). -/
theorem State.Inv.pop (h : s.Inv) (h0 : 0 < s.sp.toNat) : s.pop.Inv := by
  have hle := h.sp_le
  have hsp : (s.sp - 1).toNat = s.sp.toNat - 1 := by bv_omega
  refine ⟨?_, h.pc_le, fun j hj => h.stack_le j ?_, h.mem_wf⟩
  · rw [pop_sp, hsp]; omega
  · rw [pop_sp, hsp] at hj; omega

/-- The pushed slot holds the new return address, and the slots below it are as before (R102). -/
theorem State.Inv.push (h : s.Inv) {v : Word} (hsp : s.sp.toNat < 16)
    (hv : v.toNat ≤ Config.memSize) : (s.push v hsp).Inv := by
  have hsp1 : (s.sp + 1).toNat = s.sp.toNat + 1 := by bv_omega
  refine ⟨?_, h.pc_le, fun j hj => ?_, h.mem_wf⟩
  · rw [push_sp, hsp1]; omega
  · rw [push_sp, hsp1] at hj
    rw [push_stack, Vector.get_eq_getElem, Vector.getElem_set]
    split
    · exact hv
    · exact h.stack_le j (by omega)

/-- From a fetchable pc the advance stays within memory or just after it (R88, R38). -/
theorem advance_pc_le (hpc : s.pc.toNat + 1 < 4096) : s.advance.pc.toNat ≤ Config.memSize := by
  rw [advance_pc]; unfold Config.memSize; bv_omega

theorem State.Inv.advance (h : s.Inv) (hpc : s.pc.toNat + 1 < 4096) : s.advance.Inv :=
  h.setPc ((advance_pc_le hpc).trans (by decide))

theorem State.Inv.skipIf (h : s.Inv) (hpc : s.pc.toNat ≤ Config.memSize) (c : Bool) : (s.skipIf c).Inv := by
  cases c with
  | false => exact h
  | true => exact h.setPc (by unfold Config.memSize at hpc; unfold maxPc; bv_omega)

end

/-! Completed instructions. -/

/-- Whatever a completed instruction has done from a fetchable pc, the invariants hold after it. -/
theorem NextCases.inv {i : Instr} {s t : State} (hn : NextCases i s t) (h : s.Inv)
    (hpc : s.pc.toNat + 1 < 4096) : t.Inv := by
  have ha : s.advance.Inv := h.advance hpc
  rcases hn with ⟨w, rfl, hw⟩ | ⟨c, rfl, -⟩ | ⟨j, -, hj, rfl⟩ | ⟨nnn, -, hsp, rfl⟩ | ⟨x, r, rfl, -⟩ |
    ⟨x, r, c, rfl, -⟩ | ⟨x, kk, r, -, rfl⟩ | ⟨v, rfl, -⟩ | ⟨x, -, rfl⟩ | ⟨x, -, rfl⟩ | ⟨bs, rfl, hbs, -⟩ |
    ⟨x, -, rfl⟩ | ⟨-, rfl⟩ | ⟨x, y, n, f, c, -, rfl, -⟩ | ⟨-, -, rfl⟩
  -- A jump: 1nnn stays below 0x1000, Bnnn at most 0x10FE.
  · refine ha.setPc ?_
    rcases hw with ⟨nnn, -, rfl⟩ | ⟨nnn, -, rfl⟩
    · rw [zext16_toNat]; unfold maxPc; omega
    · rw [jumpV0Target_toNat]; unfold maxPc; omega
  · exact ha.skipIf (advance_pc_le hpc) c
  -- A return: the slot popped was occupied, so it holds a return address.
  · exact (ha.pop (by rw [advance_sp]; omega)).setPc ((h.stack_le j (by omega)).trans (by decide))
  · exact (ha.push hsp (advance_pc_le hpc)).setPc (by rw [zext16_toNat]; unfold maxPc; omega)
  · exact ha.setReg x r
  · exact (ha.setReg x r).setReg regVF c
  · exact ha.of_eq rfl rfl rfl rfl
  · exact ha.of_eq rfl rfl rfl rfl
  · exact ha.of_eq rfl rfl rfl rfl
  · exact ha.of_eq rfl rfl rfl rfl
  · exact ha.setMem (Memory.wf_writeBytes h.mem_wf hbs)
  · rw [loadRegList_eq]; exact ha.of_eq rfl rfl rfl rfl
  · exact ha.of_eq rfl rfl rfl rfl
  · exact ha.of_eq rfl rfl rfl rfl
  · exact h

@[simp] theorem loadRegList_draws (a : Nat) (s : State) (ks : List Reg) :
    (loadRegList a s ks).draws = s.draws := by
  rw [loadRegList_eq]

/-- No completed instruction sets the count of drawn bytes back (R139; log 4). -/
theorem NextCases.draws_le {i : Instr} {s t : State} (hn : NextCases i s t) : s.draws ≤ t.draws := by
  rcases hn with ⟨w, rfl, -⟩ | ⟨c, rfl, -⟩ | ⟨j, -, -, rfl⟩ | ⟨nnn, -, hsp, rfl⟩ | ⟨x, r, rfl, -⟩ |
    ⟨x, r, c, rfl, -⟩ | ⟨x, kk, r, -, rfl⟩ | ⟨v, rfl, -⟩ | ⟨x, -, rfl⟩ | ⟨x, -, rfl⟩ | ⟨bs, rfl, -, -⟩ |
    ⟨x, -, rfl⟩ | ⟨-, rfl⟩ | ⟨x, y, n, f, c, -, rfl, -⟩ | ⟨-, -, rfl⟩ <;> simp

/-- A step that completes has fetched an instruction in bounds and executed it. -/
theorem stepUnder_next_cases {p : Config.Parameters} {s t : State} (h : stepUnder p s = .next t) :
    s.pc.toNat + 1 < 4096 ∧ ∃ i, NextCases i s t := by
  rcases stepUnder_outcome p s with ⟨_, e⟩ | ⟨_, e⟩ | ⟨hpc, i, e⟩ <;> rw [e] at h
  · cases h
  · cases h
  · exact ⟨hpc, i, execUnder_next_cases h⟩

theorem State.Inv.of_stepUnder {p : Config.Parameters} {s t : State} (h : s.Inv)
    (hs : stepUnder p s = .next t) : t.Inv := by
  obtain ⟨hpc, i, hn⟩ := stepUnder_next_cases hs
  exact hn.inv h hpc

/-- A step is stuck only on an sp above 16 (log 7). -/
theorem sp_gt_of_stepUnder_stuck {p : Config.Parameters} {s : State} {b : Byte}
    (h : stepUnder p s = .fault (.illegalStackPointer b)) : 16 < s.sp.toNat := by
  rcases stepUnder_outcome p s with ⟨_, e⟩ | ⟨_, e⟩ | ⟨_, i, e⟩ <;> rw [e] at h
  · cases h
  · cases h
  · rcases execUnder_outcome p i s with ⟨_, e, _⟩ | ⟨_, e, _⟩ | ⟨_, hsp, _⟩
    · cases e.symm.trans h
    · cases e.symm.trans h
    · exact hsp

theorem State.Inv.not_stuck {s : State} (h : s.Inv) (p : Config.Parameters) (b : Byte) :
    stepUnder p s ≠ .fault (.illegalStackPointer b) := fun hs =>
  absurd (sp_gt_of_stepUnder_stuck hs) (Nat.not_lt.mpr h.sp_le)

/-! The host's transactions (R8). -/

/-- TICK moves the timers alone (R230). -/
theorem tick_eq_some {s t : State} (h : tick s = some t) :
    t = (s.setDT (tickTimer s.DT)).setST (tickTimer s.ST) := by
  unfold tick at h
  split at h
  · cases h
  · exact (Option.some.inj h).symm

/-- KEYS_IN sets the keys alone (R45). -/
theorem keysIn_eq_some {k : Vector Bool 16} {s t : State} (h : keysIn k s = some t) :
    t = s.setKeys k := by
  unfold keysIn at h
  split at h
  · cases h
  · exact (Option.some.inj h).symm

/-- A LOAD that succeeds has written an image that fits (R254). -/
theorem load_eq_some {bytes : List Byte} {s t : State} (h : load bytes s = some t) :
    Config.programBase + bytes.length ≤ Config.memSize ∧
      t = s.setMem (s.mem.writeBytes Config.programBase bytes) := by
  unfold load at h
  split at h
  · cases h
  · next hfits => exact ⟨by unfold Config.memSize Config.programBase at *; omega, (Option.some.inj h).symm⟩

/-- Whatever CONSTRUCT draws, memory is canonical and every other part of the invariants is fixed (R251). -/
theorem inv_construct (u : ResetValues) (drawn : Nat) : (State.construct u drawn).Inv where
  sp_le := show (0 : Byte).toNat ≤ 16 by decide
  pc_le := show (0x200 : Word).toNat ≤ maxPc by decide
  stack_le _ hj := absurd hj (Nat.not_lt_zero _)
  mem_wf := by
    refine Memory.wf_writeBytes (Memory.wf_writeBytes Memory.wf_reset ?_) ?_
    · rw [Vector.length_toList]; decide
    · rw [Vector.length_toList]

theorem State.Inv.of_cycle {p : Config.Parameters} {s t : State} (h : s.Inv) (hc : cycle p s = some t) :
    t.Inv := by
  rcases cycle_eq_some hc with hs | ⟨r, -, rfl⟩
  · exact h.of_stepUnder hs
  · exact h.of_eq rfl rfl rfl rfl

theorem cycle_draws_le {p : Config.Parameters} {s t : State} (hc : cycle p s = some t) :
    s.draws ≤ t.draws := by
  rcases cycle_eq_some hc with hs | ⟨r, -, rfl⟩
  · obtain ⟨-, i, hn⟩ := stepUnder_next_cases hs
    exact hn.draws_le
  · exact le_rfl

/-- Every transaction that is done keeps the invariants (R51). -/
theorem transact_done_inv {p : Config.Parameters} {m : Transaction} {h t : Session}
    (hd : h.transact p m = .done t) (hi : h.state.Inv) : t.state.Inv := by
  rcases transact_done hd with ⟨u, -, rfl⟩ | ⟨bytes, s, -, -, -, -, hs, rfl⟩ | ⟨s, -, hs, rfl⟩ |
    ⟨s, -, hs, rfl⟩ | ⟨k, s, -, hs, rfl⟩
  · exact inv_construct u h.state.draws
  · obtain ⟨hfits, rfl⟩ := load_eq_some hs
    exact hi.setMem (Memory.wf_writeBytes hi.mem_wf hfits)
  · exact hi.of_cycle hs
  · obtain rfl := tick_eq_some hs
    exact hi.of_eq rfl rfl rfl rfl
  · obtain rfl := keysIn_eq_some hs
    exact hi.of_eq rfl rfl rfl rfl

/-- No transaction that is done sets the count of drawn bytes back (log 4). -/
theorem transact_done_draws_le {p : Config.Parameters} {m : Transaction} {h t : Session}
    (hd : h.transact p m = .done t) : h.state.draws ≤ t.state.draws := by
  rcases transact_done hd with ⟨u, -, rfl⟩ | ⟨bytes, s, -, -, -, -, hs, rfl⟩ | ⟨s, -, hs, rfl⟩ |
    ⟨s, -, hs, rfl⟩ | ⟨k, s, -, hs, rfl⟩
  · exact le_rfl
  · rw [(load_eq_some hs).2]; exact le_rfl
  · exact cycle_draws_le hs
  · rw [tick_eq_some hs]; exact le_rfl
  · rw [keysIn_eq_some hs]; exact le_rfl

/-- What every transaction that is done keeps holds after every order of transactions (R6). -/
theorem run_induction {p : Config.Parameters} {P : Session → Prop}
    (hdone : ∀ (m : Transaction) (h t : Session), P h → h.transact p m = .done t → P t)
    (ms : List Transaction) {h h' : Session} (h0 : P h) (hr : Session.run p ms h = some h') : P h' := by
  induction ms generalizing h with
  | nil => exact Option.some.inj hr ▸ h0
  | cons m ms ih =>
    rw [Session.run] at hr
    split at hr
    next t ht => exact ih (hdone m h t h0 ht) hr
    next t ht =>
      obtain ⟨rfl, -⟩ := transact_loadFailed ht
      exact ih h0 hr
    next => cases hr

/-! The statements of spec/00_scope.md. -/

/-- Settles O54, by induction over the transactions: each of them keeps the invariants, which exclude the sp
that a step is stuck on, and none of them lowers the count of drawn bytes. -/
theorem hostRunsKeepInvariants : Obligations.HostRunsKeepInvariants := by
  intro p ms h h' hi hr
  have hinv : h'.state.Inv :=
    run_induction (P := fun t => t.state.Inv) (fun _ _ _ hi hd => transact_done_inv hd hi) ms hi hr
  have hdraws : h.state.draws ≤ h'.state.draws :=
    run_induction (P := fun t => h.state.draws ≤ t.state.draws)
      (fun _ _ _ hle hd => hle.trans (transact_done_draws_le hd)) ms le_rfl hr
  exact ⟨hinv, hinv.not_stuck p, hdraws⟩

/-- Settles O7: the default pick is the lowest key, which is one of the pressed ones, and the dispatch reads
the parameters in four arms only. -/
theorem stepIsTheMachineUnderTheDefaults : Obligations.StepIsTheMachineUnderTheDefaults :=
  ⟨defaultParameters_legal, execUnder_default, stepUnder_default, fun p _ s => execUnder_eq_exec p s⟩

/-- Settles O13: every outcome of the parametrised machine is a next state or a fault, and `exec` and `step`
are that machine under the defaults. -/
theorem nothingIsRefused : Obligations.NothingIsRefused := by
  refine ⟨fun s r => ?_, fun i s r => ?_, stepUnder_ne_refused⟩
  · rw [← stepUnder_default]; exact stepUnder_ne_refused defaultParameters s r
  · rw [← execUnder_default]; exact execUnder_ne_refused defaultParameters i s r

end Sys2Proof.Machine
end

section
/-! SUPPORT. Which kinds of state each instruction writes, and that the two timers pass
unseen through every instruction that does not move them; then the statements of spec/10_state.md. -/

namespace Sys2Proof.Machine

/-! The kinds of state an instruction writes (R35, R39 to R42, R139). -/

/-- The kinds of state, other than the V registers and pc, that an instruction may write. -/
def writtenParts : Instr → List Part
  | .ldI _ | .addIVx _ | .ldFVx _ => [.index]
  | .ret | .call _ => [.stack]
  | .ldDTVx _ => [.delay]
  | .ldSTVx _ => [.sound]
  | .ldBVx _ | .storeRegs _ => [.memory]
  | .cls | .drw _ _ _ => [.frame]
  | .rnd _ _ => [.draws]
  | .jp _ | .jpV0 _ | .seImm _ _ | .sneImm _ _ | .seReg _ _ | .sneReg _ _ | .skp _ | .sknp _ | .ldImm _ _
  | .addImm _ _ | .ldReg _ _ | .orReg _ _ | .andReg _ _ | .xorReg _ _ | .addReg _ _ | .subReg _ _
  | .subnReg _ _ | .shr _ _ | .shl _ _ | .ldVxDT _ | .ldVxK _ | .loadRegs _ => []

section
variable {i : Instr}

theorem index_mem_writtenParts (h : Part.index ∈ writtenParts i) :
    ∃ nnn x, i = .ldI nnn ∨ i = .addIVx x ∨ i = .ldFVx x := by
  cases i with
  | ldI nnn => exact ⟨nnn, 0, .inl rfl⟩
  | addIVx x => exact ⟨0, x, .inr (.inl rfl)⟩
  | ldFVx x => exact ⟨0, x, .inr (.inr rfl)⟩
  | _ => simp [writtenParts] at h

theorem stack_mem_writtenParts (h : Part.stack ∈ writtenParts i) : i = .ret ∨ ∃ nnn, i = .call nnn := by
  cases i with
  | ret => exact .inl rfl
  | call nnn => exact .inr ⟨nnn, rfl⟩
  | _ => simp [writtenParts] at h

theorem delay_mem_writtenParts (h : Part.delay ∈ writtenParts i) : ∃ x, i = .ldDTVx x := by
  cases i with
  | ldDTVx x => exact ⟨x, rfl⟩
  | _ => simp [writtenParts] at h

theorem sound_mem_writtenParts (h : Part.sound ∈ writtenParts i) : ∃ x, i = .ldSTVx x := by
  cases i with
  | ldSTVx x => exact ⟨x, rfl⟩
  | _ => simp [writtenParts] at h

theorem draws_mem_writtenParts (h : Part.draws ∈ writtenParts i) : ∃ x kk, i = .rnd x kk := by
  cases i with
  | rnd x kk => exact ⟨x, kk, rfl⟩
  | _ => simp [writtenParts] at h

end

theorem frame_refl (s : State) : Frame [] [] s s := by
  constructor <;> intros <;> trivial

/-- A completed instruction leaves every kind of state outside its `writtenParts` unchanged, and the keys and
`fault` always. -/
theorem NextCases.frame {i : Instr} {s t : State} (hn : NextCases i s t) :
    ∃ regs, Frame regs (writtenParts i) s t := by
  rcases hn with ⟨w, rfl, hi⟩ | ⟨c, rfl, hi⟩ | ⟨j, rfl, -, rfl⟩ | ⟨nnn, rfl, hsp, rfl⟩ | ⟨x, r, rfl, hi⟩ |
    ⟨x, r, c, rfl, -, hi⟩ | ⟨x, kk, r, rfl, rfl⟩ | ⟨v, rfl, hi⟩ | ⟨x, rfl, rfl⟩ | ⟨x, rfl, rfl⟩ |
    ⟨bs, rfl, -, hi⟩ | ⟨x, rfl, rfl⟩ | ⟨rfl, rfl⟩ | ⟨x, y, n, f, c, rfl, rfl, -⟩ | ⟨⟨x, rfl⟩, -, rfl⟩
  · rcases hi with ⟨_, rfl, -⟩ | ⟨_, rfl, -⟩ <;> exact ⟨_, frame_jump s w⟩
  · rcases hi with ⟨_, _, rfl | rfl⟩ | ⟨_, _, rfl | rfl⟩ | ⟨_, rfl | rfl⟩ <;> exact ⟨_, frame_skip s c⟩
  · exact ⟨_, frame_pop s (s.stack.get j)⟩
  · exact ⟨_, frame_push s (s.pc + 2) (zext16 nnn) hsp⟩
  · rcases hi with ⟨_, rfl | rfl⟩ | ⟨_, rfl | rfl | rfl | rfl⟩ | rfl | rfl <;>
      exact ⟨_, frame_writeReg s x r⟩
  · rcases hi with ⟨_, rfl | rfl | rfl | rfl | rfl⟩ <;> exact ⟨_, frame_writeRegFlag s x r c⟩
  · exact ⟨_, frame_random s x r⟩
  · rcases hi with ⟨_, _, rfl | rfl | rfl⟩ <;> exact ⟨_, frame_writeI s v⟩
  · exact ⟨_, frame_setDT s (s.reg x)⟩
  · exact ⟨_, frame_setST s (s.reg x)⟩
  · rcases hi with ⟨_, rfl, -⟩ | ⟨_, rfl, -⟩ <;> exact ⟨_, frame_setMem s _⟩
  · exact ⟨_, frame_loadRegs s s.I.toNat x⟩
  · exact ⟨_, frame_setFb s Framebuffer.blank⟩
  · exact ⟨_, frame_drawing s f c⟩
  · exact ⟨_, frame_refl t⟩

/-- Fx65 leaves the pc it is given (R36). -/
@[simp] theorem loadRegList_pc (a : Nat) (s : State) (ks : List Reg) :
    (loadRegList a s ks).pc = s.pc := by
  rw [loadRegList_eq]

/-! The timers (R41, R42, R43). -/

/-- A result with its next state, if it has one, changed by `f`. -/
def mapNext (f : State → State) : Result → Result
  | .next t => .next (f t)
  | .fault r => .fault r
  | .refused r => .refused r

/-- The state with its two timers changed and nothing else: `setDT` and `setST` are of this form. -/
def State.mapTimers (f g : Byte → Byte) (s : State) : State := (s.setDT (f s.DT)).setST (g s.ST)

section
variable (f g : Byte → Byte) (s : State)

theorem skipWhen_mapTimers (c : Bool) :
    skipWhen c (s.mapTimers f g) = mapNext (State.mapTimers f g) (skipWhen c s) := by
  cases c <;> rfl

theorem skipOnKey_mapTimers (i : Instr) (want : Bool) (x : Reg) :
    skipOnKey i want x (s.mapTimers f g) = mapNext (State.mapTimers f g) (skipOnKey i want x s) := by
  unfold skipOnKey
  rw [show (s.mapTimers f g).reg x = s.reg x from rfl]
  cases keyNumber? (s.reg x) with
  | none => rfl
  | some k => exact skipWhen_mapTimers f g s (s.key k == want)

theorem waitForKey_mapTimers (pick : Reg → List Reg → Reg) (x : Reg) :
    waitForKey pick x (s.mapTimers f g) = mapNext (State.mapTimers f g) (waitForKey pick x s) := by
  unfold waitForKey
  rw [show pressedKeys (s.mapTimers f g) = pressedKeys s from rfl]
  cases pressedKeys s <;> rfl

theorem storeBytes_mapTimers (i : Instr) (bs : List Byte) :
    storeBytes i bs (s.mapTimers f g) = mapNext (State.mapTimers f g) (storeBytes i bs s) := by
  unfold storeBytes
  rw [apply_ite (mapNext _)]
  rfl

theorem loadRegList_mapTimers (a : Nat) (ks : List Reg) :
    loadRegList a (s.mapTimers f g) ks = (loadRegList a s ks).mapTimers f g := by
  induction ks generalizing s with
  | nil => rfl
  | cons k ks ih => exact ih (s.setReg k (s.mem.read (a + k.val)))

theorem execLoadRegs_mapTimers (x : Reg) :
    execLoadRegs x (s.mapTimers f g) = mapNext (State.mapTimers f g) (execLoadRegs x s) := by
  unfold execLoadRegs
  rw [apply_ite (mapNext _)]
  exact if_congr Iff.rfl
    (congrArg _ (loadRegList_mapTimers f g s.advance s.I.toNat (regsUpTo x))) rfl

theorem execDrw_mapTimers (x y : Reg) (n : Nibble) :
    execDrw x y n (s.mapTimers f g) = mapNext (State.mapTimers f g) (execDrw x y n s) := by
  unfold execDrw
  rw [apply_ite (mapNext _)]
  rfl

theorem execRet_mapTimers :
    execRet (s.mapTimers f g) = mapNext (State.mapTimers f g) (execRet s) := by
  unfold execRet
  rw [apply_ite (mapNext _), apply_dite (mapNext _)]
  rfl

theorem execCall_mapTimers (nnn : Addr) :
    execCall nnn (s.mapTimers f g) = mapNext (State.mapTimers f g) (execCall nnn s) := by
  unfold execCall
  rw [apply_dite (mapNext _)]
  simp only [apply_ite (mapNext _)]
  rfl

/-- An instruction that moves neither timer does the same whatever they hold, and passes them on. -/
theorem exec_mapTimers {i : Instr} (hread : ∀ x, i ≠ .ldVxDT x) (hdelay : ∀ x, i ≠ .ldDTVx x)
    (hsound : ∀ x, i ≠ .ldSTVx x) :
    exec i (s.mapTimers f g) = mapNext (State.mapTimers f g) (exec i s) := by
  cases i with
  | ldVxDT x => exact absurd rfl (hread x)
  | ldDTVx x => exact absurd rfl (hdelay x)
  | ldSTVx x => exact absurd rfl (hsound x)
  | ret => exact execRet_mapTimers f g s
  | call nnn => exact execCall_mapTimers f g s nnn
  | seImm | sneImm | seReg | sneReg => exact skipWhen_mapTimers f g s _
  | skp x => exact skipOnKey_mapTimers f g s (.skp x) true x
  | sknp x => exact skipOnKey_mapTimers f g s (.sknp x) false x
  | ldVxK x => exact waitForKey_mapTimers f g s keywaitPick x
  | ldBVx x => exact storeBytes_mapTimers f g s (.ldBVx x) (decimalDigits (s.reg x))
  | storeRegs x => exact storeBytes_mapTimers f g s (.storeRegs x) (regBytes s x)
  | loadRegs x => exact execLoadRegs_mapTimers f g s x
  | drw x y n => exact execDrw_mapTimers f g s x y n
  | _ => rfl

end

/-- DT is seen through Fx07 alone, and only Fx15 does not pass it on (R41, R43). -/
theorem exec_setDT {i : Instr} (s : State) (d : Byte) (hread : ∀ x, i ≠ .ldVxDT x)
    (hwrite : ∀ x, i ≠ .ldDTVx x) :
    exec i (s.setDT d) = mapNext (·.setDT d) (exec i s) := by
  by_cases hsound : ∃ x, i = .ldSTVx x
  · obtain ⟨x, rfl⟩ := hsound
    rfl
  · exact exec_mapTimers (fun _ => d) id s hread hwrite (not_exists.mp hsound)

/-- ST is never seen, and only Fx18 does not pass it on (R42, R43). -/
theorem exec_setST {i : Instr} (s : State) (d : Byte) (hwrite : ∀ x, i ≠ .ldSTVx x) :
    exec i (s.setST d) = mapNext (·.setST d) (exec i s) := by
  by_cases hread : ∃ x, i = .ldVxDT x
  · obtain ⟨x, rfl⟩ := hread
    rfl
  by_cases hdelay : ∃ x, i = .ldDTVx x
  · obtain ⟨x, rfl⟩ := hdelay
    rfl
  exact exec_mapTimers id (fun _ => d) s (not_exists.mp hread) (not_exists.mp hdelay) hwrite

theorem next_of_mapNext {f : State → State} {r r' : Result} {t : State} (h : r' = mapNext f r)
    (ht : r = .next t) : r' = .next (f t) := by
  subst ht
  exact h

theorem fault_of_mapNext {f : State → State} {r r' : Result} {e : Fault} (h : r' = mapNext f r)
    (he : r = .fault e) : r' = .fault e := by
  subst he
  exact h

/-! KEYS_IN and the reset state. -/

theorem keysIn_of_no_fault {s : State} (k : Vector Bool 16) (h : s.fault = none) :
    keysIn k s = some (s.setKeys k) := by
  unfold keysIn
  rw [h]

/-- The reset state differs from what CONSTRUCT leaves in no field the invariants see but memory. -/
theorem inv_reset : State.reset.Inv :=
  ((inv_construct ResetValues.zero 0).setMem Memory.wf_reset).of_eq rfl rfl rfl rfl

/-! The statements of spec/10_state.md. -/

/-- Settles O52: a completed step has executed one instruction from a fetchable pc, and every case of what an
instruction can do keeps the invariants. -/
theorem stepKeepsInvariants : Obligations.StepKeepsInvariants :=
  ⟨fun s _ hi hs => hi.of_stepUnder ((stepUnder_default s).trans hs), fun _ _ _ hi hs => hi.of_stepUnder hs⟩

/-- Settles O48: a kind of state that has changed is one the instruction writes. -/
theorem specialRegistersHaveOnlyTheirWriters : Obligations.SpecialRegistersHaveOnlyTheirWriters := by
  intro i s t h
  obtain ⟨regs, hf⟩ := (exec_next_cases h).frame
  refine ⟨fun hI => ?_, fun hstack => ?_, fun hDT => ?_, fun hST => ?_, fun hdraws => ?_, hf.keys, hf.fault⟩
  · exact index_mem_writtenParts (by_contra fun hp => hI (hf.index hp))
  · refine stack_mem_writtenParts (by_contra fun hp => ?_)
    obtain ⟨hsp, hslots⟩ := hf.stack hp
    exact hstack.elim (· hsp) (· hslots)
  · exact delay_mem_writtenParts (by_contra fun hp => hDT (hf.delay hp))
  · exact sound_mem_writtenParts (by_contra fun hp => hST (hf.sound hp))
  · exact draws_mem_writtenParts (by_contra fun hp => hdraws (hf.draws hp))

/-- Settles O50: the jumps, the taken skips, RET, CALL and the key wait set pc, and every other instruction
leaves the common advance. -/
theorem pcAfterACompletedCycle : Obligations.PcAfterACompletedCycle := by
  intro i s t h
  rcases exec_next_cases h with ⟨w, rfl, hi⟩ | ⟨c, rfl, hi⟩ | ⟨j, hi, hj, rfl⟩ | ⟨nnn, hi, hsp, rfl⟩ |
    ⟨x, r, rfl, -⟩ | ⟨x, r, c, rfl, -⟩ | ⟨x, kk, r, -, rfl⟩ | ⟨v, rfl, -⟩ | ⟨x, -, rfl⟩ | ⟨x, -, rfl⟩ |
    ⟨bs, rfl, -⟩ | ⟨x, -, rfl⟩ | ⟨-, rfl⟩ | ⟨x, y, n, f, c, -, rfl, -⟩ | ⟨hi, hk, rfl⟩
  · rcases hi with ⟨nnn, hi, rfl⟩ | ⟨nnn, hi, rfl⟩
    · exact .inr (.inr (.inr (.inl ⟨nnn, zext16_toNat nnn, .inl hi⟩)))
    · exact .inr (.inr (.inr (.inr (.inl ⟨nnn, jumpV0Target_toNat nnn (s.reg 0), hi⟩))))
  · cases c with
    | false => exact .inl rfl
    | true => exact .inr (.inl ⟨BitVec.add_assoc s.pc 2 2, hi⟩)
  · exact .inr (.inr (.inr (.inr (.inr ⟨hi, j, hj, rfl⟩))))
  · exact .inr (.inr (.inr (.inl ⟨nnn, zext16_toNat nnn, .inr hi⟩)))
  · exact .inl rfl
  · exact .inl rfl
  · exact .inl rfl
  · exact .inl rfl
  · exact .inl rfl
  · exact .inl rfl
  · exact .inl rfl
  · exact .inl (loadRegList_pc s.I.toNat s.advance (regsUpTo x))
  · exact .inl rfl
  · exact .inl rfl
  · exact .inr (.inr (.inl ⟨rfl, hi, hk⟩))

/-- Settles O51: an execution from changed timers is the execution with the timers changed at its end, but
for the instructions that move the timer. -/
theorem timersAreSeenOnlyThroughFx07 : Obligations.TimersAreSeenOnlyThroughFx07 := by
  refine ⟨fun i s d hread => ?_, fun i s d => ?_⟩
  · by_cases hwrite : ∃ x, i = .ldDTVx x
    · obtain ⟨x, rfl⟩ := hwrite
      exact ⟨fun t ht => .inr ⟨ht, x, rfl⟩, nofun⟩
    · have he := exec_setDT s d hread (not_exists.mp hwrite)
      exact ⟨fun t ht => .inl (next_of_mapNext he ht), fun e => fault_of_mapNext he⟩
  · by_cases hwrite : ∃ x, i = .ldSTVx x
    · obtain ⟨x, rfl⟩ := hwrite
      exact ⟨fun t ht => .inr ⟨ht, x, rfl⟩, nofun⟩
    · have he := exec_setST s d (not_exists.mp hwrite)
      exact ⟨fun t ht => .inl (next_of_mapNext he ht), fun e => fault_of_mapNext he⟩

/-- Settles O53: sp, pc and the canonical form of memory are fixed by CONSTRUCT, whatever it draws. -/
theorem constructMeetsInvariants : Obligations.ConstructMeetsInvariants := ⟨inv_reset, inv_construct⟩

/-- Settles O17: the other ends of RET and CALL have sp at most 16. -/
theorem illegalStackPointerIsStuck : Obligations.IllegalStackPointerIsStuck := by
  intro s nnn hsp
  constructor
  · rcases execRet_cases s with ⟨h, -⟩ | ⟨j, h, -⟩ | ⟨-, e⟩
    · omega
    · omega
    · exact e
  · rcases execCall_cases nnn s with ⟨h, -⟩ | ⟨h, -⟩ | ⟨-, e⟩
    · rw [advance_sp] at h; omega
    · omega
    · exact e

/-- Settles O47: with no fault KEYS_IN is `setKeys`, which writes one field. -/
theorem keysInOverwritesAllKeys : Obligations.KeysInOverwritesAllKeys := fun s k h =>
  ⟨s.setKeys k, keysIn_of_no_fault k h, fun _ => rfl, rfl⟩

end Sys2Proof.Machine
end

section
/-! SUPPORT. What a completed store leaves in memory, and which instructions write memory and the
framebuffer; then the statements of spec/20_memory.md. -/

namespace Sys2Proof.Machine

/-! The stores (R62, R64). -/

theorem exec_ldBVx (x : Reg) (s : State) :
    exec (.ldBVx x) s = storeBytes (.ldBVx x) (decimalDigits (s.reg x)) s := rfl

theorem exec_storeRegs (x : Reg) (s : State) :
    exec (.storeRegs x) s = storeBytes (.storeRegs x) (regBytes s x) s := rfl

section
variable {i : Instr} {bs : List Byte} {s t : State} {a : Nat}

/-- Every byte of memory after a completed store (R64). -/
theorem mem_read_of_storeBytes (h : storeBytes i bs s = .next t) (a : Nat) :
    t.mem.read a = byteAfterStore s bs a := by
  rcases storeBytes_cases i bs s with ⟨-, e⟩ | ⟨-, e⟩
  · cases e.symm.trans h
    exact Memory.read_writeBytes bs s.mem s.I.toNat a
  · cases e.symm.trans h

theorem byteAfterStore_outside (h : a < s.I.toNat ∨ s.I.toNat + bs.length ≤ a) :
    byteAfterStore s bs a = s.mem.read a :=
  (Memory.read_writeBytes bs s.mem s.I.toNat a).symm.trans (Memory.read_writeBytes_outside h)

/-- A completed store changes no byte outside its range (R64). -/
theorem mem_range_of_storeBytes (h : storeBytes i bs s = .next t) (ha : t.mem.read a ≠ s.mem.read a) :
    s.I.toNat ≤ a ∧ a < s.I.toNat + bs.length := by
  rw [mem_read_of_storeBytes h] at ha
  by_contra hout
  exact ha (byteAfterStore_outside (by omega))

/-- A fetch sees the memory as the store left it (R74). -/
theorem fetchWord_of_storeBytes {u : State} (h : storeBytes i bs s = .next t) (hmem : u.mem = t.mem)
    (hpc : u.pc.toNat + 1 < 4096) :
    fetchWord u = some (wordOfBytes (byteAfterStore s bs u.pc.toNat)
      (byteAfterStore s bs (u.pc.toNat + 1))) := by
  rw [fetchWord_of_lt hpc, hmem, mem_read_of_storeBytes h, mem_read_of_storeBytes h]

/-! The writers of memory and of the framebuffer (R64, R44). -/

theorem memory_mem_writtenParts (h : Part.memory ∈ writtenParts i) :
    (∃ x, i = .ldBVx x) ∨ ∃ x, i = .storeRegs x := by
  cases i with
  | ldBVx x => exact .inl ⟨x, rfl⟩
  | storeRegs x => exact .inr ⟨x, rfl⟩
  | _ => simp [writtenParts] at h

theorem frame_mem_writtenParts (h : Part.frame ∈ writtenParts i) :
    i = .cls ∨ ∃ x y n, i = .drw x y n := by
  cases i with
  | cls => exact .inl rfl
  | drw x y n => exact .inr ⟨x, y, n, rfl⟩
  | _ => simp [writtenParts] at h

end

/-! The statements of spec/20_memory.md. -/

/-- Settles O36: Fx55 and Fx33 end as the one store, and a fetch reads the memory it left. -/
theorem storedCodeIsFetchedNext : Obligations.StoredCodeIsFetchedNext := by
  intro s t u x hmem hpc
  rw [exec_storeRegs, exec_ldBVx]
  exact ⟨fun h => fetchWord_of_storeBytes h hmem hpc, fun h => fetchWord_of_storeBytes h hmem hpc⟩

/-- Settles O49: a kind of state that has changed is one the instruction writes, and the two instructions
that write memory are stores of three and of x + 1 bytes from mem[I] on. -/
theorem memoryAndFramebufferHaveOnlyTheirWriters :
    Obligations.MemoryAndFramebufferHaveOnlyTheirWriters := by
  intro i s t h
  obtain ⟨regs, hf⟩ := (exec_next_cases h).frame
  refine ⟨fun a ha => ?_, fun hfb => frame_mem_writtenParts (by_contra fun hp => hfb (hf.frame hp))⟩
  rcases memory_mem_writtenParts (by_contra fun hp => ha (hf.memory hp a)) with ⟨x, rfl⟩ | ⟨x, rfl⟩
  · rw [exec_ldBVx] at h
    obtain ⟨hlo, hhi⟩ := mem_range_of_storeBytes h ha
    rw [decimalDigits_length] at hhi
    exact .inl ⟨x, rfl, hlo, by omega⟩
  · rw [exec_storeRegs] at h
    obtain ⟨hlo, hhi⟩ := mem_range_of_storeBytes h ha
    rw [regBytes_length] at hhi
    exact .inr ⟨x, rfl, hlo, by omega⟩

end Sys2Proof.Machine
end

section
/-! SUPPORT. The encoder and the decoder undo each other, and which words are unknown, by the dispatch of R90 and
by the table of R91; then the statements of spec/30_encoding.md about decoding. -/

namespace Sys2Proof

/-! Decoding an encoding (R97, R93): each layout gives its fields back. -/

theorem decode_encode (i : Instr) : decode (encode i) = .ok i := by
  cases i with
  | cls | ret => rfl
  | jp | call | ldI | jpV0 => simp [encode, decode]
  | seImm | sneImm | ldImm | addImm | rnd => simp [encode, decode]
  | seReg | sneReg | drw => simp [encode, decode]
  | ldReg | orReg | andReg | xorReg | addReg | subReg | shr | subnReg | shl =>
    simp [encode, decode, decodeOp8]
  | skp | sknp => simp [encode, decode, decodeOpE]
  | _ => simp [encode, decode, decodeOpF]

theorem decodeBytes_of_decode {w : Word} {i : Instr} (h : decode w = .ok i) (rest : List Byte) :
    decodeBytes (highByte w :: lowByte w :: rest) = .ok (i, rest) := by
  simp only [decodeBytes, wordOfBytes_bytes, h]

/-! Encoding a decoding (R97): the decoder keeps every field that its dispatch has not tested, so the fields
make up the word again. -/

section
variable {w v : Word} {i : Instr} {op n : Nibble} {kk : Byte}

theorem wordNNN_of_op (hop : opField w = op) : wordNNN op (nnnField w) = w := by
  rw [← hop, wordNNN_fields]

theorem wordXKK_of_op (hop : opField w = op) : wordXKK op (xField w) (kkField w) = w := by
  rw [← hop, wordXKK_fields]

theorem wordXKK_of_op_kk (hop : opField w = op) (hkk : kkField w = kk) :
    wordXKK op (xField w) kk = w := by
  rw [← hkk, wordXKK_of_op hop]

theorem wordXYN_of_op_n (hop : opField w = op) (hn : nField w = n) :
    wordXYN op (xField w) (yField w) n = w := by
  rw [← hop, ← hn, wordXYN_fields]

theorem eq_of_op_nnn (hop : opField w = opField v) (hnnn : nnnField w = nnnField v) : w = v := by
  rw [← wordNNN_of_op hop, hnnn, wordNNN_fields]

theorem encode_of_decodeOp0 (h : decodeOp0 w = .ok i) : encode i = w := by
  unfold decodeOp0 at h
  split_ifs at h with hcls hret <;> cases h
  · exact hcls.symm
  · exact hret.symm

theorem encode_of_decodeOp8 (hop : opField w = 0x8#4) (h : decodeOp8 w = .ok i) : encode i = w := by
  unfold decodeOp8 at h
  split at h <;> cases h
  all_goals next hn => exact wordXYN_of_op_n hop hn

theorem encode_of_decodeOpE (hop : opField w = 0xE#4) (h : decodeOpE w = .ok i) : encode i = w := by
  unfold decodeOpE at h
  split at h <;> cases h
  all_goals next hkk => exact wordXKK_of_op_kk hop hkk

theorem encode_of_decodeOpF (hop : opField w = 0xF#4) (h : decodeOpF w = .ok i) : encode i = w := by
  unfold decodeOpF at h
  split at h <;> cases h
  all_goals next hkk => exact wordXKK_of_op_kk hop hkk

theorem encode_of_decode (h : decode w = .ok i) : encode i = w := by
  unfold decode at h
  split at h
  case h_1 => exact encode_of_decodeOp0 h
  case h_9 hop => exact encode_of_decodeOp8 hop h
  case h_15 hop => exact encode_of_decodeOpE hop h
  case h_16 hop => exact encode_of_decodeOpF hop h
  case h_2 hop | h_3 hop | h_11 hop | h_12 hop => cases h; exact wordNNN_of_op hop
  case h_4 hop | h_5 hop | h_7 hop | h_8 hop | h_13 hop => cases h; exact wordXKK_of_op hop
  case h_6 hop | h_10 hop =>
    split_ifs at h with hn
    cases h
    exact wordXYN_of_op_n hop hn
  case h_14 hop => cases h; exact wordXYN_of_op_n hop rfl
  case h_17 => cases h

/-! The words that are unknown, within each op whose dispatch is not by op alone (R94). -/

theorem decodeOp0_eq_unknown :
    decodeOp0 w = .error (.unknownOpcode w) ↔ w ≠ 0x00E0#16 ∧ w ≠ 0x00EE#16 := by
  unfold decodeOp0
  split_ifs <;> simp [*]

theorem decodeOp8_eq_unknown :
    decodeOp8 w = .error (.unknownOpcode w) ↔
      nField w ∈ [0x8#4, 0x9#4, 0xA#4, 0xB#4, 0xC#4, 0xD#4, 0xF#4] := by
  have hrest : ∀ n : Nibble, n ∈ [0x8#4, 0x9#4, 0xA#4, 0xB#4, 0xC#4, 0xD#4, 0xF#4] ↔
      n ∉ [0x0#4, 0x1#4, 0x2#4, 0x3#4, 0x4#4, 0x5#4, 0x6#4, 0x7#4, 0xE#4] := by decide
  rw [hrest]
  unfold decodeOp8
  split <;> simp_all

theorem decodeOpE_eq_unknown :
    decodeOpE w = .error (.unknownOpcode w) ↔ kkField w ∉ [0x9E#8, 0xA1#8] := by
  unfold decodeOpE
  split <;> simp_all

theorem decodeOpF_eq_unknown :
    decodeOpF w = .error (.unknownOpcode w) ↔
      kkField w ∉ [0x07#8, 0x0A#8, 0x15#8, 0x18#8, 0x1E#8, 0x29#8, 0x33#8, 0x55#8, 0x65#8] := by
  unfold decodeOpF
  split <;> simp_all

end

/-! The statements about decoding. -/

/-- Settles O1, by the layout of each instruction's word. -/
theorem decodeUndoesEncode : Obligations.DecodeUndoesEncode := fun i rest =>
  ⟨decode_encode i, decodeBytes_of_decode (decode_encode i) rest⟩

/-- Settles O2, by the op of the word and, where the dispatch goes on, by its low nibble or low byte. -/
theorem encodeUndoesDecode : Obligations.EncodeUndoesDecode := fun _ _ h => encode_of_decode h

/-- Settles O4: in each op, the words that its dispatch leaves over. -/
theorem unknownOpcodeWordSpaces : Obligations.UnknownOpcodeWordSpaces := by
  have hops : ∀ op : Nibble, op ∈ [0x0#4, 0x1#4, 0x2#4, 0x3#4, 0x4#4, 0x5#4, 0x6#4, 0x7#4, 0x8#4, 0x9#4,
      0xA#4, 0xB#4, 0xC#4, 0xD#4, 0xE#4, 0xF#4] := by decide
  intro w
  rw [← decodeOp0_eq_unknown, ← decodeOp8_eq_unknown, ← decodeOpE_eq_unknown, ← decodeOpF_eq_unknown]
  unfold decode
  split
  case h_17 => have := hops (opField w); simp_all
  all_goals next hop => simp [hop]

/-- In each space of R94 the fields differ from those of every row (R91). -/
theorem matchingRows_of_unknown {w : Word} (h : decode w = .error (.unknownOpcode w)) :
    matchingRows w = [] := by
  rcases (unknownOpcodeWordSpaces w).mp h with
    ⟨hop, hcls, hret⟩ | ⟨hop, hn⟩ | ⟨hop, hn⟩ | ⟨hop, hn⟩ | ⟨hop, hkk⟩ | ⟨hop, hkk⟩
  all_goals
    simp +decide [matchingRows, opcodeTable, opcodeRowsLow, opcodeRowsMid, opcodeRowsHigh, selects_F000,
      selects_F00F, selects_F0FF, selects_FFFF, hop]
  · exact ⟨fun e => hcls (eq_of_op_nnn hop e), fun e => hret (eq_of_op_nnn hop e)⟩
  · exact hn
  · generalize nField w = n at hn
    revert n
    decide
  · exact hn
  · simpa [kkField] using hkk
  · simpa [kkField] using hkk

/-- Settles O3: a word that decodes is its instruction's encoding, which selects that instruction's row alone;
any other word is in a space of R94, where no row matches. -/
theorem decodeAgreesWithOpcodeTable : Obligations.DecodeAgreesWithOpcodeTable := by
  intro w
  cases hd : decode w with
  | ok i =>
    obtain rfl := encode_of_decode hd
    exact .inl ⟨i, rfl, Machine.matchingRows_encode i⟩
  | error e =>
    obtain rfl := decode_error hd
    exact .inr ⟨rfl, matchingRows_of_unknown hd⟩

theorem decode_of_no_row {w : Word} (h : matchingRows w = []) : decode w = .error (.unknownOpcode w) := by
  rcases decodeAgreesWithOpcodeTable w with ⟨i, -, hrow⟩ | ⟨hd, -⟩
  · exact nomatch h.symm.trans hrow
  · exact hd

/-- Settles O5, by evaluation. -/
theorem sampleWordsDecode : Obligations.SampleWordsDecode := by
  unfold Obligations.SampleWordsDecode
  decide

end Sys2Proof
end

section
/-! SUPPORT. How a cycle without a fault present ends, by its fetch and its decode (R85); then the statements of
spec/30_encoding.md about the cycle. -/

namespace Sys2Proof.Machine

section
variable {s : State}

theorem runCycle_of_fetch_none (execute : Instr → State → Result) (hf : s.fault = none)
    (hw : fetchWord s = none) :
    runCycle execute s = .fault (.raised ⟨.fetchOutOfBounds, none, s.pc⟩) := by
  simp only [runCycle, hf, hw, raiseFetch, raise]

theorem runCycle_of_unknown (execute : Instr → State → Result) {w : Word} (hf : s.fault = none)
    (hw : fetchWord s = some w) (hd : decode w = .error (.unknownOpcode w)) :
    runCycle execute s = .fault (.raised ⟨.unknownOpcode, some w, s.pc⟩) := by
  simp only [runCycle, hf, hw, hd, raiseDecode, raise]

theorem runCycle_of_decode (execute : Instr → State → Result) {w : Word} {i : Instr}
    (hf : s.fault = none) (hw : fetchWord s = some w) (hd : decode w = .ok i) :
    runCycle execute s = execute i s := by
  simp only [runCycle, hf, hw, hd]

/-- A fault raised before the execute phase is the step's, and the cycle leaves it under any parameters. -/
theorem step_cycle_of_raised {r : FaultRecord} (h : ∀ execute, runCycle execute s = .fault (.raised r)) :
    step s = .fault (.raised r) ∧ ∀ p, cycle p s = some (s.withFault r) :=
  ⟨h exec, fun p => by simp only [cycle, stepUnder, h]⟩

end

/-! The statements about the cycle. -/

/-- Settles O6: the fetch brings the two bytes, and the cycle executes what they decode to. -/
theorem stepRunsDecodedInstruction : Obligations.StepRunsDecodedInstruction := fun _ _ hf hpc hd =>
  ⟨runCycle_of_decode exec hf (fetchWord_of_lt hpc) hd,
    fun p => runCycle_of_decode (execUnder p) hf (fetchWord_of_lt hpc) hd⟩

/-- Settles O8, by the bound that the fetch checks. -/
theorem fetchIsBoundedAndBigEndian : Obligations.FetchIsBoundedAndBigEndian := by
  refine fun s hf => ⟨fun hpc => ?_, fetchWord_of_lt, ?_⟩
  · have hw : fetchWord s = none := fetchWord_eq_none.mpr (by omega)
    exact step_cycle_of_raised fun execute => runCycle_of_fetch_none execute hf hw
  · rw [Option.isSome_iff_ne_none, Ne, fetchWord_eq_none]
    omega

/-- Settles O9: a word that matches no row is unknown to the decoder. -/
theorem unknownOpcodeStopsCycle : Obligations.UnknownOpcodeStopsCycle := fun _ _ hf hw hrow =>
  step_cycle_of_raised fun execute => runCycle_of_unknown execute hf hw (decode_of_no_row hrow)

end Sys2Proof.Machine
end

section
/-! SUPPORT. How the jumps, the skips, RET and CALL end, and what a push leaves in the stack slots; then the
statements of spec/40_control_flow.md. -/

namespace Sys2Proof.Machine

/-- Two executions one after the other leave unchanged what both leave unchanged. -/
theorem Frame.trans {regs : List Reg} {parts : List Part} {s t u : State} (h : Frame regs parts s t)
    (h' : Frame regs parts t u) : Frame regs parts s u where
  reg k hk := (h'.reg k hk).trans (h.reg k hk)
  index hp := (h'.index hp).trans (h.index hp)
  stack hp :=
    ⟨(h'.stack hp).1.trans (h.stack hp).1, (h'.stack hp).2.trans (h.stack hp).2⟩
  delay hp := (h'.delay hp).trans (h.delay hp)
  sound hp := (h'.sound hp).trans (h.sound hp)
  memory hp a := (h'.memory hp a).trans (h.memory hp a)
  frame hp := (h'.frame hp).trans (h.frame hp)
  draws hp := (h'.draws hp).trans (h.draws hp)
  keys := h'.keys.trans h.keys
  fault := h'.fault.trans h.fault

/-! The jumps and the skips (R88, R89). -/

theorem exec_jp (nnn : Addr) (s : State) : exec (.jp nnn) s = .next (s.advance.setPc (zext16 nnn)) := rfl

theorem exec_jpV0 (nnn : Addr) (s : State) :
    exec (.jpV0 nnn) s = .next (s.advance.setPc (jumpV0Target nnn (s.reg 0))) := rfl

/-- A skip whose condition decides `P` passes the next instruction over exactly when `P` holds (R89). -/
theorem skipWhen_of_iff {c : Bool} {P : Prop} [Decidable P] (hc : c = true ↔ P) (s : State) :
    ∃ t, skipWhen c s = .next t ∧ t.pc = (if P then s.pc + 4 else s.pc + 2) ∧ Frame [] [] s t := by
  refine ⟨s.advance.skipIf c, rfl, ?_, frame_skip s c⟩
  rw [skipIf_pc, advance_pc, BitVec.add_assoc]
  exact if_congr hc rfl rfl

/-! The stack slots after a push (R102), and the ends of RET and CALL by sp (R101, R102). -/

section
variable {s : State} {v : Word} {j k : Fin 16}

theorem push_stack_get (h : s.sp.toNat < 16) (hj : s.sp.toNat = j.val) : (s.push v h).stack.get j = v := by
  rw [push_stack, Vector.get_eq_getElem, Vector.getElem_set, if_pos hj]

theorem push_stack_get_ne (h : s.sp.toNat < 16) (hk : k.val ≠ s.sp.toNat) :
    (s.push v h).stack.get k = s.stack.get k := by
  rw [push_stack, Vector.get_eq_getElem, Vector.getElem_set, if_neg hk.symm, Vector.get_eq_getElem]

theorem push_sp_toNat (v : Word) (h : s.sp.toNat < 16) : (s.push v h).sp.toNat = s.sp.toNat + 1 := by
  rw [push_sp]; bv_omega

theorem pop_sp_toNat (h : s.sp.toNat = j.val + 1) : s.pop.sp.toNat = j.val := by
  rw [pop_sp]; bv_omega

theorem exec_ret_of_empty (h : s.sp.toNat = 0) :
    exec .ret s = faultOutcome .ret .stackUnderflow s := by
  rcases execRet_cases s with ⟨-, e⟩ | ⟨i, hi, -⟩ | ⟨h', -⟩
  · exact e
  · omega
  · omega

theorem exec_ret_of_top (h : s.sp.toNat = j.val + 1) :
    exec .ret s = .next (s.advance.pop.setPc (s.stack.get j)) := by
  rcases execRet_cases s with ⟨h', -⟩ | ⟨i, hi, e⟩ | ⟨h', -⟩
  · omega
  · obtain rfl : i = j := by omega
    exact e
  · omega

/-- RET takes back what was pushed last (R109). -/
theorem exec_ret_of_push (v w : Word) (h : s.sp.toNat < 16) :
    exec .ret ((s.push v h).setPc w) = .next (((s.push v h).setPc w).advance.pop.setPc v) := by
  have hret := exec_ret_of_top (s := (s.push v h).setPc w) (j := ⟨s.sp.toNat, h⟩) (push_sp_toNat v h)
  rwa [setPc_stack, push_stack_get h rfl] at hret

theorem exec_call_of_full (nnn : Addr) (h : s.sp.toNat = 16) :
    exec (.call nnn) s = faultOutcome (.call nnn) .stackOverflow s := by
  rcases execCall_cases nnn s with ⟨h', -⟩ | ⟨-, e⟩ | ⟨h', -⟩
  · rw [advance_sp] at h'; omega
  · exact e
  · omega

theorem exec_call_of_lt (nnn : Addr) (h : s.advance.sp.toNat < 16) :
    exec (.call nnn) s = .next ((s.advance.push (s.pc + 2) h).setPc (zext16 nnn)) := by
  rcases execCall_cases nnn s with ⟨_, e⟩ | ⟨h', -⟩ | ⟨h', -⟩
  · exact e
  · rw [advance_sp] at h; omega
  · rw [advance_sp] at h; omega

end

/-! The statements of spec/40_control_flow.md. -/

/-- Settles O18: RET takes back what CALL has pushed, and both leave everything but the stack unchanged. -/
theorem returnUndoesCall : Obligations.ReturnUndoesCall := by
  intro s nnn (h : s.advance.sp.toNat < 16)
  refine ⟨_, _, exec_call_of_lt nnn h, exec_ret_of_push _ _ h, rfl, ?_, fun k hk => push_stack_get_ne h hk,
    (frame_push s _ _ h).trans (frame_pop _ _)⟩
  exact BitVec.add_sub_cancel s.sp 1

/-- Settles O14: the target is the only pc that 1nnn leaves, and two bytes at 0xFFF reach past memory. -/
theorem jumpSetsPcToTarget : Obligations.JumpSetsPcToTarget := by
  refine fun s nnn => ⟨hasPattern_row (.jp nnn), _, exec_jp nnn s, zext16_toNat nnn, ?_, frame_jump s _⟩
  rintro rfl
  rw [fetchWord_eq_none, setPc_pc, zext16_toNat]
  decide

/-- Settles O15, by the two ends of RET with sp at most 16. -/
theorem returnPopsTopSlotIntoPc : Obligations.ReturnPopsTopSlotIntoPc := fun s =>
  ⟨hasPattern_row .ret, exec_ret_of_empty, fun _ hj =>
    ⟨_, exec_ret_of_top hj, rfl, pop_sp_toNat (s := s.advance) hj, rfl, frame_pop s _⟩⟩

/-- Settles O16, by the two ends of CALL with sp at most 16. -/
theorem callPushesReturnAddress : Obligations.CallPushesReturnAddress := by
  refine fun s nnn => ⟨hasPattern_row (.call nnn), exec_call_of_full nnn, fun j hj => ?_⟩
  have h : s.advance.sp.toNat < 16 := hj.trans_lt j.isLt
  refine ⟨_, exec_call_of_lt nnn h, push_stack_get h hj, fun k hk => push_stack_get_ne h ?_, ?_,
    zext16_toNat nnn, frame_push s _ _ h⟩
  · rw [advance_sp, hj]; exact Fin.val_ne_of_ne hk
  · exact (push_sp_toNat (s.pc + 2) h).trans (congrArg (· + 1) hj)

/-- Settles O19: each skip with its own condition. -/
theorem immediateSkipsCompareVxWithKk : Obligations.ImmediateSkipsCompareVxWithKk := fun s x kk =>
  ⟨⟨hasPattern_row (.seImm x kk), skipWhen_of_iff beq_iff_eq s⟩,
    ⟨hasPattern_row (.sneImm x kk), skipWhen_of_iff bne_iff_ne s⟩⟩

/-- Settles O20: each skip with its own condition. -/
theorem registerSkipsCompareVxWithVy : Obligations.RegisterSkipsCompareVxWithVy := fun s x y =>
  ⟨⟨hasPattern_row (.seReg x y), skipWhen_of_iff beq_iff_eq s⟩,
    ⟨hasPattern_row (.sneReg x y), skipWhen_of_iff bne_iff_ne s⟩⟩

/-- Settles O21: the target is at most 0xFFF + 0xFF, which 16 bits hold. -/
theorem jumpV0AddsWithoutReduction : Obligations.JumpV0AddsWithoutReduction := fun s nnn =>
  ⟨hasPattern_row (.jpV0 nnn), _, exec_jpV0 nnn s, jumpV0Target_toNat nnn (s.reg 0), frame_jump s _⟩

end Sys2Proof.Machine
end

section
/-! SUPPORT. The values of the arithmetic and logic unit as natural numbers, how its instructions end, and
which instructions can change VF; then the statements of spec/41_alu.md. -/

namespace Sys2Proof.Machine

/-! Results and flags (R14, R132, R133). -/

theorem sumByte_toNat (a b : Byte) : (sumByte a b).toNat = (a.toNat + b.toNat) % 256 :=
  mod256_toNat (a.toNat + b.toNat)

theorem differenceByte_toNat (a b : Byte) :
    (differenceByte a b).toNat = (a.toNat + 256 - b.toNat) % 256 :=
  mod256_toNat (a.toNat + 256 - b.toNat)

theorem shiftRightByte_toNat (a : Byte) : (shiftRightByte a).toNat = a.toNat / 2 := by
  unfold shiftRightByte
  rw [BitVec.toNat_ushiftRight, Nat.shiftRight_eq_div_pow, pow_one]

theorem shiftRightFlag_toNat (a : Byte) : (shiftRightFlag a).toNat = a.toNat % 2 := by
  unfold shiftRightFlag
  rw [BitVec.toNat_and]
  exact Nat.and_one_is_mod a.toNat

theorem shiftLeftByte_toNat (a : Byte) : (shiftLeftByte a).toNat = a.toNat * 2 % 256 := by
  unfold shiftLeftByte
  rw [BitVec.toNat_shiftLeft, Nat.shiftLeft_eq, pow_one]

theorem shiftLeftFlag_toNat (a : Byte) : (shiftLeftFlag a).toNat = a.toNat / 128 := by
  unfold shiftLeftFlag
  rw [BitVec.toNat_ushiftRight, Nat.shiftRight_eq_div_pow]

theorem flagByte_decide (P : Prop) [Decidable P] : flagByte (decide P) = if P then 1 else 0 :=
  if_congr decide_eq_true_iff rfl rfl

/-! The ends of the instructions: a flag writer, a shift from either source, and a draw. -/

section
variable (x y : Reg) (s : State)

/-- A flag writer leaves its result, unless VF is the destination, and the flag in VF (R133). -/
theorem writeRegFlag_next {r flag b : Byte} {n : Nat} (hr : r.toNat = n) (hflag : flag = b) :
    ∃ t, writeRegFlag x r flag s = .next t ∧ (x ≠ regVF → (t.reg x).toNat = n) ∧ t.reg regVF = b ∧
      t.pc = s.pc + 2 ∧ Frame [x, regVF] [] s t := by
  refine ⟨_, writeRegFlag_eq x r flag s, fun hx => ?_, ?_, rfl, frame_writeRegFlag s x r flag⟩
  · rw [reg_setRegFlag_result _ hx, hr]
  · rw [reg_setRegFlag_flag, hflag]

theorem shiftRightFrom_next (p : Config.ShiftSource) {b : Byte} (hb : shiftOperand p s x y = b) :
    ∃ t, shiftRightFrom p x y s = .next t ∧ (x ≠ regVF → (t.reg x).toNat = b.toNat / 2) ∧
      (t.reg regVF).toNat = b.toNat % 2 ∧ t.pc = s.pc + 2 ∧ Frame [x, regVF] [] s t := by
  subst hb
  obtain ⟨t, ht, hres, hflag, hrest⟩ := writeRegFlag_next x s (shiftRightByte_toNat _) rfl
  exact ⟨t, ht, hres, hflag ▸ shiftRightFlag_toNat _, hrest⟩

theorem shiftLeftFrom_next (p : Config.ShiftSource) {b : Byte} (hb : shiftOperand p s x y = b) :
    ∃ t, shiftLeftFrom p x y s = .next t ∧ (x ≠ regVF → (t.reg x).toNat = b.toNat * 2 % 256) ∧
      (t.reg regVF).toNat = b.toNat / 128 ∧ t.pc = s.pc + 2 ∧ Frame [x, regVF] [] s t := by
  subst hb
  obtain ⟨t, ht, hres, hflag, hrest⟩ := writeRegFlag_next x s (shiftLeftByte_toNat _) rfl
  exact ⟨t, ht, hres, hflag ▸ shiftLeftFlag_toNat _, hrest⟩

theorem writeRandom_next (r kk : Byte) :
    ∃ t, writeRandom r x kk s = .next t ∧ t.reg x = (r &&& kk) ∧ t.draws = s.draws + 1 ∧
      t.pc = s.pc + 2 ∧ Frame [x] [.draws] s t :=
  ⟨_, rfl, reg_setReg_self _ x (r &&& kk), rfl, rfl, frame_random s x (r &&& kk)⟩

end

/-! What can change VF (R32, R133). -/

/-- Whether VF holds the flag of the instruction afterwards. -/
def writesFlag : Instr → Bool
  | .addReg _ _ | .subReg _ _ | .subnReg _ _ | .shr _ _ | .shl _ _ | .drw _ _ _ => true
  | _ => false

theorem writesFlag_iff {i : Instr} :
    writesFlag i = true ↔
      (∃ x y, i = .addReg x y ∨ i = .subReg x y ∨ i = .subnReg x y ∨ i = .shr x y ∨ i = .shl x y) ∨
        ∃ x y n, i = .drw x y n := by
  cases i <;> simp [writesFlag]

/-- A write to one register leaves VF alone, unless that register is VF (R31). -/
theorem reg_flag_setReg (s : State) (x : Reg) (b : Byte) :
    (s.setReg x b).reg regVF = s.reg regVF ∨ x.val = 15 := by
  by_cases hx : regVF = x
  · exact .inr (congrArg Fin.val hx.symm)
  · exact .inl (reg_setReg_ne s hx b)

/-- Fx65 leaves VF alone, unless it loads all of the registers (R155). -/
theorem reg_flag_loadRegList (a : Nat) (s : State) (x : Reg) :
    (loadRegList a s (regsUpTo x)).reg regVF = s.reg regVF ∨ x.val = 15 := by
  rw [reg_loadRegList]
  by_cases hx : regVF ∈ regsUpTo x
  · exact .inr (le_antisymm (Nat.le_of_lt_succ x.isLt) ((mem_regsUpTo x regVF).mp hx))
  · exact .inl (if_neg hx)

/-- What a completed instruction has done to VF: a flag writer has left 0 or 1 there, and any other has left
it alone or has an x field of 0xF. -/
theorem NextCases.flag {i : Instr} {s t : State} (hn : NextCases i s t) :
    (writesFlag i = true ∧ (t.reg regVF = 0 ∨ t.reg regVF = 1)) ∨
    (writesFlag i = false ∧ (t.reg regVF = s.reg regVF ∨ i.fieldValues.x = 15)) := by
  rcases hn with ⟨w, rfl, hi⟩ | ⟨c, rfl, hi⟩ | ⟨j, rfl, -, rfl⟩ | ⟨nnn, rfl, hsp, rfl⟩ | ⟨x, r, rfl, hi⟩ |
    ⟨x, r, c, rfl, hc, hi⟩ | ⟨x, kk, r, rfl, rfl⟩ | ⟨v, rfl, hi⟩ | ⟨x, rfl, rfl⟩ | ⟨x, rfl, rfl⟩ |
    ⟨bs, rfl, -, hi⟩ | ⟨x, rfl, rfl⟩ | ⟨rfl, rfl⟩ | ⟨x, y, n, f, c, rfl, rfl, hc⟩ | ⟨⟨x, rfl⟩, -, rfl⟩
  · rcases hi with ⟨_, rfl, -⟩ | ⟨_, rfl, -⟩ <;> exact .inr ⟨rfl, .inl rfl⟩
  · rcases hi with ⟨_, _, rfl | rfl⟩ | ⟨_, _, rfl | rfl⟩ | ⟨_, rfl | rfl⟩ <;>
      exact .inr ⟨rfl, .inl (reg_skipIf s.advance regVF c)⟩
  · exact .inr ⟨rfl, .inl rfl⟩
  · exact .inr ⟨rfl, .inl rfl⟩
  -- One register written: it is Vx.
  · rcases hi with ⟨_, rfl | rfl⟩ | ⟨_, rfl | rfl | rfl | rfl⟩ | rfl | rfl <;>
      exact .inr ⟨rfl, reg_flag_setReg s.advance x r⟩
  -- A result and a flag: VF is written last.
  · rw [reg_setRegFlag_flag]
    rcases hi with ⟨_, rfl | rfl | rfl | rfl | rfl⟩ <;> exact .inl ⟨rfl, hc⟩
  · exact .inr ⟨rfl, reg_flag_setReg s.advance x r⟩
  · rcases hi with ⟨_, _, rfl | rfl | rfl⟩ <;> exact .inr ⟨rfl, .inl rfl⟩
  · exact .inr ⟨rfl, .inl rfl⟩
  · exact .inr ⟨rfl, .inl rfl⟩
  · rcases hi with ⟨_, rfl, -⟩ | ⟨_, rfl, -⟩ <;> exact .inr ⟨rfl, .inl rfl⟩
  · exact .inr ⟨rfl, reg_flag_loadRegList s.I.toNat s.advance x⟩
  · exact .inr ⟨rfl, .inl rfl⟩
  -- A drawing: VF takes the collision.
  · rw [reg_setReg_self]
    exact .inl ⟨rfl, hc⟩
  · exact .inr ⟨rfl, .inl rfl⟩

/-! The statements of spec/41_alu.md. -/

/-- Settles O28: of the two ends `NextCases.flag` gives, each clause leaves one. -/
theorem flagWritersLeaveZeroOrOne : Obligations.FlagWritersLeaveZeroOrOne := by
  refine ⟨fun i s t h hi => ?_, fun i s t h hne => ?_⟩
  · rcases (exec_next_cases h).flag with ⟨-, hflag⟩ | ⟨hw, -⟩
    · exact hflag
    · exact absurd (hw.symm.trans (writesFlag_iff.mpr hi)) Bool.false_ne_true
  · rcases (exec_next_cases h).flag with ⟨hw, -⟩ | ⟨-, heq | hx⟩
    · exact or_assoc.mp (.inl (writesFlag_iff.mp hw))
    · exact absurd heq hne
    · exact .inr (.inr hx)

/-- Settles O22: each of the three ends by writing its value to Vx. -/
theorem loadsAndImmediateAdd : Obligations.LoadsAndImmediateAdd := by
  refine fun s x y kk => ⟨
    ⟨hasPattern_row (.ldImm x kk), _, writeReg_eq x _ s, ?_, rfl, frame_writeReg s x _⟩,
    ⟨hasPattern_row (.addImm x kk), _, writeReg_eq x _ s, ?_, rfl, frame_writeReg s x _⟩,
    ⟨hasPattern_row (.ldReg x y), _, writeReg_eq x _ s, ?_, rfl, frame_writeReg s x _⟩⟩
  · rw [reg_setReg_self]
  · rw [reg_setReg_self, sumByte_toNat]
  · rw [reg_setReg_self]

/-- Settles O23, by the bits of each bitwise operation. -/
theorem logicIsBitwise : Obligations.LogicIsBitwise := by
  refine fun s x y => ⟨
    ⟨hasPattern_row (.orReg x y), _, writeReg_eq x _ s, fun b => ?_, rfl, frame_writeReg s x _⟩,
    ⟨hasPattern_row (.andReg x y), _, writeReg_eq x _ s, fun b => ?_, rfl, frame_writeReg s x _⟩,
    ⟨hasPattern_row (.xorReg x y), _, writeReg_eq x _ s, fun b => ?_, rfl, frame_writeReg s x _⟩⟩
  · rw [reg_setReg_self, BitVec.getLsbD_or]
  · rw [reg_setReg_self, BitVec.getLsbD_and]
  · rw [reg_setReg_self, BitVec.getLsbD_xor]

/-- Settles O24: the end of a flag writer with the sum and the carry. -/
theorem addReportsCarry : Obligations.AddReportsCarry := fun s x y =>
  ⟨hasPattern_row (.addReg x y), writeRegFlag_next x s (sumByte_toNat _ _) (flagByte_decide _)⟩

/-- Settles O25: the end of a flag writer with each difference and its no-borrow. -/
theorem subtractionsReportNoBorrow : Obligations.SubtractionsReportNoBorrow := fun s x y =>
  ⟨⟨hasPattern_row (.subReg x y),
      writeRegFlag_next x s (differenceByte_toNat _ _) (flagByte_decide _)⟩,
    ⟨hasPattern_row (.subnReg x y),
      writeRegFlag_next x s (differenceByte_toNat _ _) (flagByte_decide _)⟩⟩

/-- Settles O26: the default source of a shift is Vx. -/
theorem shiftsMoveVxByOneBit : Obligations.ShiftsMoveVxByOneBit := fun s x y =>
  ⟨⟨hasPattern_row (.shr x y), shiftRightFrom_next x y s .vx rfl⟩,
    ⟨hasPattern_row (.shl x y), shiftLeftFrom_next x y s .vx rfl⟩⟩

/-- Settles O27: under any parameters a shift is one from their source. -/
theorem shiftsFollowShiftSource : Obligations.ShiftsFollowShiftSource := fun p s x y _ hb =>
  ⟨shiftRightFrom_next x y s p.shiftSource hb.symm, shiftLeftFrom_next x y s p.shiftSource hb.symm⟩

/-- Settles O29: `exec` and the parametrised machine end in the same way, each with its own drawn byte. -/
theorem randomByteIsMasked : Obligations.RandomByteIsMasked := by
  refine fun s x kk => ⟨hasPattern_row (.rnd x kk), ?_, fun p => writeRandom_next x s (p.randIn s.draws) kk⟩
  obtain ⟨t, ht, hres, hdraws, hpc, hframe⟩ := writeRandom_next x s (Config.randIn s.draws) kk
  refine ⟨t, ht, hres, hdraws, ?_, ?_, hpc, hframe⟩
  · rintro rfl
    rw [hres]
    exact BitVec.and_zero
  · rintro rfl
    rw [hres]
    exact BitVec.and_allOnes

end Sys2Proof.Machine
end

section
/-! SUPPORT. How a store and Fx65 end by whether the last byte of their range is in memory, and what they leave
there; then the statements of spec/42_index_memory.md. -/

namespace Sys2Proof.Machine

/-! The end of an instruction that writes I, and of a store of n + 1 bytes (R62, R64, R156). -/

theorem mod256_toNat_of_lt {t : Nat} (h : t < 256) : (mod256 t).toNat = t :=
  (mod256_toNat t).trans (Nat.mod_eq_of_lt h)

theorem writeI_next (s : State) {v : Word} {n : Nat} (hv : v.toNat = n) :
    ∃ t, writeI v s = .next t ∧ t.I.toNat = n ∧ t.pc = s.pc + 2 ∧ Frame [] [.index] s t :=
  ⟨_, writeI_eq v s, hv, rfl, frame_writeI s v⟩

section
variable {i : Instr} {bs : List Byte} {s : State} {n : Nat}

theorem byteAfterStore_inside {k : Nat} {b : Byte} (h : bs[k]? = some b) :
    byteAfterStore s bs (s.I.toNat + k) = b := by
  rw [byteAfterStore, if_pos (Nat.le_add_right _ k), Nat.add_sub_cancel_left, h, Option.getD_some]

/-- A store whose last byte would lie past memory writes none (R62). -/
theorem storeBytes_of_ge (hlen : bs.length = n + 1) (h : 4096 ≤ s.I.toNat + n) :
    storeBytes i bs s = faultOutcome i .memWriteOutOfBounds s := by
  rcases storeBytes_cases i bs s with ⟨hb, -⟩ | ⟨-, e⟩
  · rw [inBounds_iff] at hb; omega
  · exact e

/-- A store whose last byte lies in memory leaves its bytes in ascending order from mem[I] on, and nothing
else but pc has changed (R64). -/
theorem storeBytes_of_lt (hlen : bs.length = n + 1) (h : s.I.toNat + n < 4096) :
    ∃ t, storeBytes i bs s = .next t ∧
      (∀ (k : Nat) (b : Byte), bs[k]? = some b → t.mem.read (s.I.toNat + k) = b) ∧
      (∀ a, (a < s.I.toNat ∨ s.I.toNat + n < a) → t.mem.read a = s.mem.read a) ∧
      t.pc = s.pc + 2 ∧ Frame [] [.memory] s t := by
  rcases storeBytes_cases i bs s with ⟨-, e⟩ | ⟨hb, -⟩
  · refine ⟨_, e, fun k b hk => ?_, fun a ha => ?_, rfl, frame_setMem s _⟩
    · rw [mem_read_of_storeBytes e, byteAfterStore_inside hk]
    · rw [mem_read_of_storeBytes e, byteAfterStore_outside (by omega)]
  · rw [← Bool.not_eq_true, inBounds_iff] at hb; omega

end

/-! The ends of Fx65 (R155). -/

theorem exec_loadRegs_of_ge {s : State} {x : Reg} (h : 4096 ≤ s.I.toNat + x.val) :
    exec (.loadRegs x) s = faultOutcome (.loadRegs x) .memReadOutOfBounds s := by
  rcases execLoadRegs_cases x s with ⟨h', -⟩ | ⟨-, e⟩
  · omega
  · exact e

theorem exec_loadRegs_of_lt {s : State} {x : Reg} (h : s.I.toNat + x.val < 4096) :
    exec (.loadRegs x) s = .next (loadRegList s.I.toNat s.advance (regsUpTo x)) := by
  rcases execLoadRegs_cases x s with ⟨-, e⟩ | ⟨h', -⟩
  · exact e
  · omega

/-! The statements of spec/42_index_memory.md. -/

/-- Settles O32: Fx33 is a store of three bytes, and each digit fits a byte. -/
theorem decimalStoreWritesThreeDigits : Obligations.DecimalStoreWritesThreeDigits := by
  intro s x
  have hlen := decimalDigits_length (s.reg x)
  refine ⟨hasPattern_row (.ldBVx x), storeBytes_of_ge hlen, fun h => ?_⟩
  obtain ⟨t, ht, hin, hrest⟩ := storeBytes_of_lt hlen h
  have hv : (s.reg x).toNat < 256 := (s.reg x).isLt
  have hdigit (k d : Nat) (hk : (decimalDigits (s.reg x))[k]? = some (mod256 d)) (hd : d < 256) :
      (t.mem.read (s.I.toNat + k)).toNat = d := by
    rw [hin k _ hk, mod256_toNat_of_lt hd]
  exact ⟨t, ht, hdigit 0 _ rfl (by omega), hdigit 1 _ rfl (by omega), hdigit 2 _ rfl (by omega), hrest⟩

/-- Settles O33: Fx55 is a store of x + 1 bytes, the k-th of them Vk. -/
theorem storeRegistersWritesV0ToVx : Obligations.StoreRegistersWritesV0ToVx := by
  intro s x
  have hlen := regBytes_length s x
  refine ⟨hasPattern_row (.storeRegs x), storeBytes_of_ge hlen, fun h => ?_⟩
  obtain ⟨t, ht, hin, hrest⟩ := storeBytes_of_lt hlen h
  exact ⟨t, ht, fun k hk => hin k _ (regBytes_getElem? s hk), hrest⟩

/-- Settles O34: the registers loaded are those up to Vx, each from its own address. -/
theorem loadRegistersReadsV0ToVx : Obligations.LoadRegistersReadsV0ToVx := by
  intro s x
  refine ⟨hasPattern_row (.loadRegs x), exec_loadRegs_of_ge, fun h => ?_⟩
  refine ⟨_, exec_loadRegs_of_lt h, fun k hk => ?_, fun k hk => ?_, loadRegList_pc _ _ _, frame_loadRegs s _ x⟩
  · rw [reg_loadRegList, if_pos ((mem_regsUpTo x k).mpr hk), advance_mem]
  · rw [reg_loadRegList, if_neg (mt (mem_regsUpTo x k).mp hk.not_ge), reg_advance]

/-- Settles O35: a store that completes is in bounds and keeps I, so the load reads the bytes it left. -/
theorem loadRegistersUndoesStore : Obligations.LoadRegistersUndoesStore := by
  intro s t u x h hmem hI
  obtain ⟨-, hfault, hstore⟩ := storeRegistersWritesV0ToVx s x
  have hlt : s.I.toNat + x.val < 4096 := by
    by_contra hge
    cases (hfault (by omega)).symm.trans h
  obtain ⟨t', ht', hread, -, -, hframe⟩ := hstore hlt
  cases ht'.symm.trans h
  have hIs : u.I = s.I := hI.trans (hframe.index (by decide))
  obtain ⟨-, -, hload⟩ := loadRegistersReadsV0ToVx u x
  obtain ⟨v, hv, hreg, -⟩ := hload (by rwa [hIs])
  refine ⟨v, hv, fun k hk => ?_⟩
  rw [hreg k hk, hmem, hIs, hread k hk]

/-- Settles O30: 12 bits, and five times a byte, fit the 16 bits of I. -/
theorem indexLoadsAddressOrGlyph : Obligations.IndexLoadsAddressOrGlyph := fun s nnn x =>
  ⟨⟨hasPattern_row (.ldI nnn), writeI_next s (zext16_toNat nnn)⟩,
    ⟨hasPattern_row (.ldFVx x), writeI_next s (glyphAddress_toNat _)⟩⟩

/-- Settles O31: the sum in 16 bits is the sum mod 65536. -/
theorem indexAddWrapsAtSixteenBits : Obligations.IndexAddWrapsAtSixteenBits := fun s x =>
  ⟨hasPattern_row (.addIVx x), writeI_next s (indexSum_toNat s.I _)⟩

end Sys2Proof.Machine
end

section
/-! SUPPORT. How Dxyn ends by whether its sprite is readable, which pixels it toggles and what it leaves in VF;
then the statements of spec/43_graphics.md. -/

namespace Sys2Proof.Machine

theorem exec_cls (s : State) : exec .cls s = .next (s.advance.setFb Framebuffer.blank) := rfl

/-! A flag in VF, read back (R14). -/

theorem flagByte_eq_one {c : Bool} : flagByte c = 1 ↔ c = true := by
  cases c <;> decide

theorem flagByte_eq_zero {c : Bool} : flagByte c = 0 ↔ c = false := by
  cases c <;> decide

/-- The pixels of a sprite depend on I and memory alone (R172, R173). -/
theorem drawnAt_of_frame {regs : List Reg} {parts : List Part} {s t : State} (h : Frame regs parts s t)
    (hindex : Part.index ∉ parts) (hmem : Part.memory ∉ parts) (cx cy : Byte) (n : Nibble) :
    drawnAt t cx cy n = drawnAt s cx cy n := by
  funext py px
  simp only [drawnAt, h.index hindex, h.memory hmem]

/-! The ends of Dxyn (R171, R174). -/

section
variable {s t : State} {x y : Reg} {n : Nibble}

theorem exec_drw_of_not_readable (h : ¬ SpriteReadable s n) :
    exec (.drw x y n) s = faultOutcome (.drw x y n) .memReadOutOfBounds s := by
  rcases execDrw_cases x y n s with ⟨hr, -⟩ | ⟨-, e⟩
  · exact absurd hr h
  · exact e

theorem exec_drw_of_readable (h : SpriteReadable s n) : exec (.drw x y n) s =
    writeDrawing (drawSprite (s.reg x) (s.reg y) (spriteBytes s n) s.fb) s := by
  rcases execDrw_cases x y n s with ⟨-, e⟩ | ⟨hr, -⟩
  · exact e
  · exact absurd h hr

theorem readable_of_exec_drw (h : exec (.drw x y n) s = .next t) : SpriteReadable s n := by
  by_contra hr
  cases (exec_drw_of_not_readable hr).symm.trans h

/-- A completed Dxyn toggles the sprite's 1-bits, and VF tells whether one of them was on before. -/
theorem exec_drw_next (h : exec (.drw x y n) s = .next t) :
    (∀ py px, t.fb.pixel py px = (s.fb.pixel py px ^^ drawnAt s (s.reg x) (s.reg y) n py px)) ∧
    (t.reg regVF = 1 ↔
      ∃ py px, drawnAt s (s.reg x) (s.reg y) n py px = true ∧ s.fb.pixel py px = true) ∧
    (t.reg regVF = 0 ↔
      ¬ ∃ py px, drawnAt s (s.reg x) (s.reg y) n py px = true ∧ s.fb.pixel py px = true) ∧
    t.pc = s.pc + 2 ∧ Frame [regVF] [.frame] s t := by
  cases (exec_drw_of_readable (readable_of_exec_drw h)).symm.trans h
  obtain ⟨hpixel, hhit⟩ := drawSprite_pixel s (s.reg x) (s.reg y) n s.fb
  refine ⟨hpixel, ?_, ?_, rfl, frame_drawing s _ _⟩
  · rw [reg_setReg_self, flagByte_eq_one, hhit]
  · rw [reg_setReg_self, flagByte_eq_zero, ← hhit, Bool.not_eq_true]

end

/-! The statements of spec/43_graphics.md. -/

/-- Settles O38: a pixel goes from on to off exactly if it was on and the sprite has a 1-bit there. -/
theorem drawTogglesSpritePixels : Obligations.DrawTogglesSpritePixels := by
  intro s x y n hr
  have ht : exec (.drw x y n) s = _ := exec_drw_of_readable hr
  obtain ⟨hpixel, hone, hzero, hpc, hframe⟩ := exec_drw_next ht
  refine ⟨hasPattern_row (.drw x y n), _, ht, hpixel, fun hoff => hone.mpr ?_,
    fun hoff => hzero.mpr (mt ?_ hoff), hpc, hframe⟩
  · obtain ⟨py, px, hon, hoff⟩ := hoff
    rw [hpixel, hon, Bool.true_xor, Bool.not_eq_false'] at hoff
    exact ⟨py, px, hoff, hon⟩
  · rintro ⟨py, px, hd, hon⟩
    exact ⟨py, px, hon, by rw [hpixel, hon, hd, Bool.xor_self]⟩

/-- Settles O40: the first draw leaves the sprite and its coordinates, so the second toggles the same pixels. -/
theorem drawingTwiceRestoresFramebuffer : Obligations.DrawingTwiceRestoresFramebuffer := by
  intro s t u x y n hx hy hst htu
  obtain ⟨htpixel, -, htzero, -, hframe⟩ := exec_drw_next hst
  obtain ⟨hupixel, huone, -⟩ := exec_drw_next htu
  rw [drawnAt_of_frame hframe (by decide) (by decide), hframe.reg x (by simpa using hx),
    hframe.reg y (by simpa using hy)] at hupixel huone
  refine ⟨Framebuffer.ext_pixel fun py px => ?_, fun hblank => ⟨htzero.mpr ?_, huone.trans ?_⟩⟩
  · rw [hupixel, htpixel, Bool.xor_assoc, Bool.xor_self, Bool.xor_false]
  · rintro ⟨py, px, hd, hon⟩
    exact absurd ((hblank py px hd).symm.trans hon) Bool.false_ne_true
  · refine exists_congr fun py => exists_congr fun px => and_iff_left_of_imp fun hd => ?_
    rw [htpixel, hblank py px hd, hd, Bool.false_xor]

/-- Settles O37: both times the framebuffer becomes the blank one. -/
theorem clearTurnsEveryPixelOff : Obligations.ClearTurnsEveryPixelOff := fun s =>
  ⟨hasPattern_row .cls, _, exec_cls s, pixel_blank, rfl, frame_setFb s _, _, exec_cls _, rfl⟩

/-- Settles O39: the sprite is not readable, since n > 0 and its last byte is past memory. -/
theorem drawBeyondMemoryFaults : Obligations.DrawBeyondMemoryFaults := fun _ _ _ _ hn hI =>
  exec_drw_of_not_readable (not_or.mpr ⟨hn.ne', hI.not_gt⟩)

end Sys2Proof.Machine
end

section
/-! SUPPORT. How the two key skips and Fx0A end by the keys, and TICK on a block with no fault; then the
statements of spec/44_keys_timers.md. -/

namespace Sys2Proof.Machine

section
variable {s : State} {x k : Reg}

/-! The ends of a skip on a key by the number in Vx (R190, R191). -/

theorem skipOnKey_of_lt (i : Instr) (want : Bool) (h : (s.reg x).toNat = k.val) :
    ∃ t, skipOnKey i want x s = .next t ∧
      t.pc = (if s.key k = want then s.pc + 4 else s.pc + 2) ∧ Frame [] [] s t := by
  rcases skipOnKey_cases i want x s with ⟨j, hj, e⟩ | ⟨h', -⟩
  · obtain rfl : j = k := Fin.ext (hj.symm.trans h)
    exact e ▸ skipWhen_of_iff beq_iff_eq s
  · omega

theorem skipOnKey_of_ge (i : Instr) (want : Bool) (h : 16 ≤ (s.reg x).toNat) :
    skipOnKey i want x s = faultOutcome i .keyIndexOutOfRange s := by
  rcases skipOnKey_cases i want x s with ⟨j, hj, -⟩ | ⟨-, e⟩
  · omega
  · exact e

/-! The ends of a key wait by the pressed keys (R193, R194). -/

theorem waitForKey_of_none (pick : Reg → List Reg → Reg) (x : Reg) (h : ∀ k, s.key k = false) :
    waitForKey pick x s = .next s := by
  rcases waitForKey_cases pick x s with ⟨-, e⟩ | ⟨k, ks, hp, -⟩
  · exact e
  · cases ((pressedKeys_eq_nil s).mpr h).symm.trans hp

/-- A key number fits a byte, so Vx holds the number of the key picked. -/
theorem waitForKey_of_pressed (pick : Reg → List Reg → Reg) (x : Reg) {ks : List Reg}
    (h : pressedKeys s = k :: ks) :
    ∃ t, waitForKey pick x s = .next t ∧ (t.reg x).toNat = (pick k ks).val ∧
      t.pc = s.pc + 2 ∧ Frame [x] [] s t := by
  rcases waitForKey_cases pick x s with ⟨hnone, -⟩ | ⟨j, js, hp, e⟩
  · cases ((pressedKeys_eq_nil s).mpr hnone).symm.trans h
  · cases h.symm.trans hp
    refine ⟨_, e, ?_, rfl, frame_writeReg s x _⟩
    rw [reg_setReg_self, BitVec.toNat_ofNat]
    omega

/-- While the program waits, a cycle runs the Fx0A again from the same state (R194). -/
theorem cycle_of_waitsForKey (p : Config.Parameters) (h : s.WaitsForKey) : cycle p s = some s := by
  obtain ⟨hf, ⟨x, hw⟩, hk⟩ := h
  have hstep : stepUnder p s = .next s :=
    (runCycle_of_decode (execUnder p) hf hw (decode_encode _)).trans (waitForKey_of_none p.keywaitPick x hk)
  simp only [cycle, hstep]

theorem tick_of_no_fault (h : s.fault = none) :
    tick s = some ((s.setDT (tickTimer s.DT)).setST (tickTimer s.ST)) := by
  unfold tick
  rw [h]

end

/-! The statements of spec/44_keys_timers.md. -/

/-- Settles O41, by the two ends of a skip on a key. -/
theorem keySkipsReadKeyVx : Obligations.KeySkipsReadKeyVx := fun _ x =>
  ⟨hasPattern_row (.skp x), hasPattern_row (.sknp x),
    fun _ hk => ⟨skipOnKey_of_lt (.skp x) true hk, skipOnKey_of_lt (.sknp x) false hk⟩,
    fun h => ⟨skipOnKey_of_ge (.skp x) true h, skipOnKey_of_ge (.sknp x) false h⟩⟩

/-- Settles O42: the wait ends in the state it began in, and with no fault TICK and KEYS_IN are moves. -/
theorem keyWaitRetriesUnchanged : Obligations.KeyWaitRetriesUnchanged := by
  refine ⟨fun s x hk => ⟨waitForKey_of_none keywaitPick x hk, fun p => waitForKey_of_none p.keywaitPick x hk⟩,
    fun s hwait => ⟨fun p => cycle_of_waitsForKey p hwait, ?_, fun k => keysIn_of_no_fault k hwait.1⟩⟩
  rw [tick_of_no_fault hwait.1, Option.isSome_some]

/-- Settles O43: the lowest pressed key is the head of the pressed keys, which is the default's pick. -/
theorem keyWaitTakesLowestPressedKey : Obligations.KeyWaitTakesLowestPressedKey := by
  intro s x k hk hlow
  obtain ⟨ks, hp⟩ := pressedKeys_of_lowest hk hlow
  exact ⟨hasPattern_row (.ldVxK x), waitForKey_of_pressed keywaitPick x hp⟩

/-- Settles O44: some key is pressed, so there is a pick, and a legal pick is one of the pressed keys. -/
theorem keyWaitUnderAnyPickTakesPressedKey : Obligations.KeyWaitUnderAnyPickTakesPressedKey := by
  rintro p s x hlegal ⟨k₀, hk₀⟩
  obtain ⟨k, ks, hp⟩ := List.exists_cons_of_ne_nil
    (List.ne_nil_of_mem ((mem_pressedKeys s k₀).mpr hk₀))
  obtain ⟨t, ht, hrest⟩ := waitForKey_of_pressed p.keywaitPick x hp
  have hpick : s.key (p.keywaitPick k ks) = true := (mem_pressedKeys s _).mp (hp ▸ hlegal k ks)
  exact ⟨t, _, ht, hpick, ⟨k, ks, hp, rfl⟩, hrest⟩

/-- Settles O45: each of the three ends with its one write. -/
theorem timerInstructionsMoveTimers : Obligations.TimerInstructionsMoveTimers := fun s x =>
  ⟨⟨hasPattern_row (.ldVxDT x), _, writeReg_eq x s.DT s, reg_setReg_self _ x s.DT, rfl,
      frame_writeReg s x s.DT⟩,
    ⟨hasPattern_row (.ldDTVx x), s.advance.setDT (s.reg x), rfl, rfl, rfl, frame_setDT s (s.reg x)⟩,
    ⟨hasPattern_row (.ldSTVx x), s.advance.setST (s.reg x), rfl, rfl, bne_iff_ne, rfl,
      frame_setST s (s.reg x)⟩⟩

end Sys2Proof.Machine
end

section
/-! SUPPORT. What a faulted block answers, what a raised fault records, what TICK leaves unchanged, and FB_OUT
as the flattened framebuffer; then the statements of spec/60_exceptions.md. -/

namespace Sys2Proof.Machine

/-! A block that has faulted (R214). -/

section
variable {s : State} {r : FaultRecord}

theorem runCycle_of_fault (execute : Instr → State → Result) (h : s.fault = some r) :
    runCycle execute s = .fault (.stopped r) := by
  simp only [runCycle, h]

theorem cycle_of_fault (p : Config.Parameters) (h : s.fault = some r) : cycle p s = none := by
  simp only [cycle, stepUnder, runCycle_of_fault _ h]

theorem tick_of_fault (h : s.fault = some r) : tick s = none := by
  simp only [tick, h]

theorem keysIn_of_fault (k : Vector Bool 16) (h : s.fault = some r) : keysIn k s = none := by
  simp only [keysIn, h]

/-- The state a cycle leaves when its step raises a fault, under any parameters: none of them matters to a
fault (R213). -/
theorem cycle_of_raised (p : Config.Parameters) (h : step s = .fault (.raised r)) :
    cycle p s = some (s.withFault r) := by
  simp only [cycle, stepUnder_fault_iff.mpr h]

end

/-! The faults of the execute phase (R210). -/

theorem faultOutcome_inj {i : Instr} {c c' : FaultCode} {s : State} :
    faultOutcome i c s = faultOutcome i c' s ↔ c = c' :=
  ⟨fun h => by cases h; rfl, congrArg (faultOutcome i · s)⟩

/-- The fetch fault is no instruction's own (R82, R210). -/
theorem ownFault_ne_fetchOutOfBounds (i : Instr) (s : State) :
    ownFault i s ≠ some .fetchOutOfBounds := by
  cases i <;> simp [ownFault]

/-- The record of a fault raised in the execute phase (R212). -/
theorem record_of_execUnder {p : Config.Parameters} {i : Instr} {s : State} {r : FaultRecord}
    (h : execUnder p i s = .fault (.raised r)) :
    r.pc = s.pc ∧ r.opcode = some (encode i) ∧ r.code ≠ .fetchOutOfBounds := by
  rcases execUnder_outcome p i s with ⟨t, e, -⟩ | ⟨c, e, hc⟩ | ⟨-, -, e⟩ <;> cases e.symm.trans h
  exact ⟨rfl, rfl, fun hfetch => ownFault_ne_fetchOutOfBounds i s (hfetch ▸ hc)⟩

/-! TICK (R230). -/

/-- TICK changes the two timers and nothing else, pc included (R230). -/
theorem frame_setTimers (s : State) (d b : Byte) : Frame [] [.delay, .sound] s ((s.setDT d).setST b) := by
  constructor <;> simp

/-! FB_OUT (R236). -/

theorem fbOut_eq_flatten (s : State) : s.fbOut = s.fb.flatten.toList := by
  simp only [State.fbOut, Vector.flatten, Vector.toList_mk, Array.toList_flatten, Array.toList_map,
    List.map_map]
  rfl

/-- FB_OUT is row-major: a row has 64 pixels, so y and x are the quotient and the remainder (R44). -/
theorem fbOut_getElem? (s : State) (y : Fin 32) (x : Fin 64) :
    s.fbOut[y.val * 64 + x.val]? = some (s.fb.pixel y x) := by
  have hpos : y.val * 64 + x.val < 32 * 64 := by omega
  have hy : (y.val * 64 + x.val) / 64 = y.val := by omega
  have hx : (y.val * 64 + x.val) % 64 = x.val := by omega
  rw [fbOut_eq_flatten, Vector.getElem?_toList, Vector.getElem?_eq_getElem hpos, Vector.getElem_flatten]
  simp only [hy, hx, Framebuffer.pixel, Vector.get_eq_getElem]

/-! The statements of spec/60_exceptions.md. -/

/-- Settles O11: a fetch fault carries no word, an unknown word is the one fetched, and an instruction's own
fault carries its encoding, which is the word it was decoded from. -/
theorem faultRecordsArePrecise : Obligations.FaultRecordsArePrecise := by
  intro s r h
  have hcycle : ∀ p, cycle p s = some (s.withFault r) := fun p => cycle_of_raised p h
  rcases runCycle_cases exec s with ⟨_, _, e⟩ | ⟨_, hw, e⟩ | ⟨w, _, hw, _, e⟩ | ⟨w, i, _, hw, hd, e⟩
  · cases e.symm.trans h
  · cases e.symm.trans h
    exact ⟨rfl, hw.symm, iff_of_true rfl hw, hcycle⟩
  · cases e.symm.trans h
    exact ⟨rfl, hw.symm, iff_of_false nofun (by simp [hw]), hcycle⟩
  · obtain ⟨hpc, hopcode, hcode⟩ := record_of_execUnder (p := defaultParameters)
      (execUnder_fault_iff.mpr (e.symm.trans h))
    rw [encode_of_decode hd, ← hw] at hopcode
    exact ⟨hpc, hopcode, iff_of_false hcode (by simp [hw]), hcycle⟩

/-- Settles O12: the three ends of an instruction exclude each other, and the stuck one is ruled out. -/
theorem onlyNamedFaultsAreRaised : Obligations.OnlyNamedFaultsAreRaised := by
  intro i s
  refine ⟨?_, fun hstuck => ?_⟩
  · rintro ⟨rfl | ⟨nnn, rfl⟩, hsp⟩
    · exact (illegalStackPointerIsStuck s 0 hsp).1
    · exact (illegalStackPointerIsStuck s nnn hsp).2
  · have houtcome := execUnder_outcome defaultParameters i s
    rw [execUnder_default] at houtcome
    rcases houtcome with ⟨t, e, hnone⟩ | ⟨c, e, hc⟩ | ⟨hi, hsp, -⟩
    · rw [e, hnone]
      exact ⟨iff_of_true rfl ⟨t, rfl⟩, fun c => iff_of_false nofun nofun⟩
    · rw [e, hc]
      exact ⟨iff_of_false nofun nofun, fun c' => Option.some_inj.trans faultOutcome_inj.symm⟩
    · exact absurd ⟨hi, hsp⟩ hstuck

/-- Settles O59: FB_OUT is the 32 rows of 64 pixels one after the other. -/
theorem outputsShowTheState : Obligations.OutputsShowTheState := by
  refine fun s => ⟨?_, fbOut_getElem? s, ?_, rfl⟩
  · rw [fbOut_eq_flatten, Vector.length_toList]
  · exact bne_iff_ne.trans (not_congr BitVec.toNat_eq)

/-- Settles O10: the fault is checked before anything else in every move but CONSTRUCT. -/
theorem faultedBlockOnlyLeavesByConstruct : Obligations.FaultedBlockOnlyLeavesByConstruct := by
  refine ⟨fun s r h => ⟨runCycle_of_fault exec h, fun p => cycle_of_fault p h, tick_of_fault h,
    fun k => keysIn_of_fault k h⟩, fun p h m hf => ?_, fun p h u => rfl⟩
  obtain ⟨r, hr⟩ := Option.isSome_iff_exists.mp hf
  cases m with
  | construct u => exact .inr ⟨u, rfl⟩
  | load bytes => exact .inl (if_pos (by rw [hf, Bool.or_true]))
  | cycle => exact .inl (by rw [Session.transact, cycle_of_fault p hr, Session.moveTo])
  | tick => exact .inl (by rw [Session.transact, tick_of_fault hr, Session.moveTo])
  | keysIn k => exact .inl (by rw [Session.transact, keysIn_of_fault k hr, Session.moveTo])

/-- Settles O46: with no fault TICK is a move, and it moves each timer alone. -/
theorem tickDecrementsNonzeroTimers : Obligations.TickDecrementsNonzeroTimers := by
  refine fun s => ⟨fun hf => ?_, fun hf => ⟨_, tick_of_no_fault hf, tickTimer_toNat s.DT,
    tickTimer_toNat s.ST, rfl, frame_setTimers s _ _⟩⟩
  obtain ⟨r, hr⟩ := Option.isSome_iff_exists.mp hf
  exact tick_of_fault hr

end Sys2Proof.Machine
end

section
/-! SUPPORT. What CONSTRUCT and LOAD leave in memory, what each move does to the two marks of a session, and a
cycle at a self-jump; then the statements of spec/70_reset_and_hazards.md. -/

namespace Sys2Proof.Machine

/-! Writing the reset contents, and what CONSTRUCT leaves in memory (R49, R251). -/

theorem Memory.initialByte_of_ge {a : Nat} (h : 0x50 ≤ a) : Memory.initialByte a = 0 := by
  have hfont : fontBytes[a]? = none := List.getElem?_eq_none h
  rw [Memory.initialByte, hfont, Option.getD_none]

/-- Writing to each address the byte it is reset to lists nothing: the form is canonical (R49). -/
theorem Memory.writeBytes_initialBytes {vs : List Byte} {a : Nat}
    (h : ∀ k b, vs[k]? = some b → b = Memory.initialByte (a + k)) : Memory.writeBytes [] a vs = [] := by
  induction vs generalizing a with
  | nil => rfl
  | cons v vs ih =>
    have hhead : Memory.write [] a v = [] := if_pos (h 0 v rfl)
    rw [Memory.writeBytes_cons, hhead]
    exact ih fun k b hk => by rw [Nat.add_right_comm]; exact h (k + 1) b hk

theorem construct_zero : State.construct ResetValues.zero 0 = State.reset := by
  have hfont : Memory.writeBytes [] 0 ResetValues.zero.font.toList = [] :=
    Memory.writeBytes_initialBytes fun k b hk => by
      have hb : fontBytes[k]? = some b := hk
      rw [Memory.initialByte, Nat.zero_add, hb, Option.getD_some]
  have hram : Memory.writeBytes [] Config.fontSize ResetValues.zero.ram.toList = [] :=
    Memory.writeBytes_initialBytes fun k b hk => by
      have hb : b = 0 := by
        rw [ResetValues.zero, Vector.toList_replicate] at hk
        exact List.eq_of_mem_replicate (List.mem_of_getElem? hk)
      rw [hb, Memory.initialByte_of_ge (Nat.le_add_right _ _)]
  have hmem : (State.construct ResetValues.zero 0).mem = State.reset.mem := by
    rw [State.construct, hfont, hram, State.reset]
  rw [State.mk.injEq]
  exact ⟨rfl, rfl, rfl, rfl, rfl, rfl, rfl, hmem, rfl, rfl, rfl, rfl⟩

section
variable (u : ResetValues) (drawn : Nat)

/-- The font stands below 0x050, where the given bytes begin (R50, R49). -/
theorem construct_mem_font (k : Fin 80) : (State.construct u drawn).mem.read k.val = u.font.get k := by
  have hbelow : k.val < Config.fontSize := k.isLt
  have hk : k.val < u.font.toList.length := by rw [Vector.length_toList]; exact k.isLt
  have hread := Memory.read_writeBytes_inside (m := []) (a := 0) hk
  rw [Nat.zero_add, Vector.getElem_toList] at hread
  exact (Memory.read_writeBytes_outside (.inl hbelow)).trans hread

theorem construct_mem_ram (k : Fin 4016) :
    (State.construct u drawn).mem.read (0x50 + k.val) = u.ram.get k := by
  have hk : k.val < u.ram.toList.length := by rw [Vector.length_toList]; exact k.isLt
  exact (Memory.read_writeBytes_inside hk).trans (Vector.getElem_toList _)

end

/-! LOAD by the length of the image (R254, R255). -/

section
variable {bytes : List Byte} {s t : State}

theorem load_of_le (h : bytes.length ≤ 3584) :
    load bytes s = some (s.setMem (s.mem.writeBytes 0x200 bytes)) := if_neg (Nat.not_lt.mpr h)

theorem load_of_gt (h : 3584 < bytes.length) : load bytes s = none := if_pos h

/-- Writing memory, pc left as it is, changes nothing else (R254). -/
theorem frame_mem (s : State) (m : Memory) : Frame [] [.memory] s (s.setMem m) := by
  constructor <;> simp

/-! LOAD as a move of a session (R255 to R257). -/

section
variable (p : Config.Parameters)

theorem transact_load_done (hf : s.fault = none) (h : load bytes s = some t) :
    Session.transact p (.load bytes) ⟨s, false, false⟩ = .done ⟨t, true, false⟩ := by
  simp [Session.transact, hf, h]

theorem transact_load_failed (hf : s.fault = none) (h : load bytes s = none) :
    Session.transact p (.load bytes) ⟨s, false, false⟩ = .loadFailed ⟨s, false, false⟩ := by
  simp [Session.transact, hf, h]

theorem transact_load_of_mark {h : Session} (hmark : h.loaded = true ∨ h.started = true) :
    h.transact p (.load bytes) = .noMove := by
  have hmarks : (h.loaded || h.started) = true := Bool.or_eq_true_iff.mpr hmark
  simp [Session.transact, hmarks]

end
end

/-- A move that is done, other than CONSTRUCT, keeps both marks; LOAD sets the one and CYCLE the other (R256,
R257). -/
theorem transact_done_marks {p : Config.Parameters} {m : Transaction} {h t : Session}
    (hd : h.transact p m = .done t) :
    (∃ u, m = .construct u) ∨
      ((h.loaded = true ∨ ∃ bytes, m = .load bytes) → t.loaded = true) ∧
      ((h.started = true ∨ m = .cycle) → t.started = true) := by
  rcases transact_done hd with ⟨u, rfl, -⟩ | ⟨bytes, s, rfl, -, -, -, -, rfl⟩ | ⟨s, rfl, -, rfl⟩ |
    ⟨s, rfl, -, rfl⟩ | ⟨k, s, rfl, -, rfl⟩
  · exact .inl ⟨u, rfl⟩
  all_goals simp

/-! A self-jump (R262). -/

theorem exec_jp_self {nnn : Addr} {s : State} (h : zext16 nnn = s.pc) : exec (.jp nnn) s = .next s := by
  rw [exec_jp, h]
  rfl

theorem cycle_of_next {p : Config.Parameters} {s t : State} (h : stepUnder p s = .next t) :
    cycle p s = some t := by
  simp only [cycle, h]

/-! The statements of spec/70_reset_and_hazards.md. -/

/-- Settles O57, by whether the image fits: a run of writes changes the bytes of its range alone. -/
theorem loadCopiesImageOrFailsWhole : Obligations.LoadCopiesImageOrFailsWhole := by
  refine fun s bytes => ⟨fun hfits => ⟨_, load_of_le hfits, fun k b hb => ?_,
    fun a ha => Memory.read_writeBytes_outside ha, rfl, frame_mem s _⟩,
    fun hlong => ⟨load_of_gt hlong, fun hf p => transact_load_failed p hf (load_of_gt hlong)⟩⟩
  obtain ⟨hk, rfl⟩ := List.getElem?_eq_some_iff.mp hb
  exact Memory.read_writeBytes_inside hk

/-- Settles O55: CONSTRUCT fixes these fields, and 0x200 is a fetchable pc. -/
theorem constructLeavesSourcedValues : Obligations.ConstructLeavesSourcedValues := fun u drawn =>
  have hpc : (State.construct u drawn).pc.toNat + 1 < 4096 := show (0x200 : Word).toNat + 1 < 4096 by decide
  ⟨rfl, rfl, pixel_blank, rfl, construct_mem_font u drawn, construct_mem_ram u drawn, fetchWord_of_lt hpc⟩

/-- Settles O56: the reset memory lists no byte, so each glyph is read from the font's table. -/
theorem resetTakesDecidedDefaults : Obligations.ResetTakesDecidedDefaults := by
  refine ⟨construct_zero, fun k => ?_, rfl, fun j => ?_, rfl, rfl, fun k => ?_,
    fun a ha => Memory.initialByte_of_ge ha, ?_⟩
  · exact Vector.getElem_replicate k.isLt
  · exact Vector.getElem_replicate j.isLt
  · exact Vector.getElem_replicate k.isLt
  · decide

/-- Settles O58: LOAD looks at both marks, and every other move but CONSTRUCT keeps them. -/
theorem loadOnlyBeforeFirstCycle : Obligations.LoadOnlyBeforeFirstCycle := by
  refine fun p => ⟨fun s bytes hf hfits => ⟨_, transact_load_done p hf (load_of_le hfits)⟩,
    fun h bytes hmark => transact_load_of_mark p hmark, fun h t bytes hd => ?_, fun h t hd => ?_,
    fun h t m hm => ?_⟩
  · obtain ⟨u, hu⟩ | ⟨hloaded, -⟩ := transact_done_marks hd
    · cases hu
    · exact hloaded (.inr ⟨bytes, rfl⟩)
  · obtain ⟨u, hu⟩ | ⟨-, hstarted⟩ := transact_done_marks hd
    · cases hu
    · exact hstarted (.inr rfl)
  · rcases hm with hd | hfailed
    · exact (transact_done_marks hd).imp_right fun ⟨hloaded, hstarted⟩ =>
        ⟨fun hl => hloaded (.inl hl), fun hs => hstarted (.inl hs)⟩
    · obtain ⟨rfl, -⟩ := transact_loadFailed hfailed
      exact .inr ⟨id, id⟩

/-- Settles O60: the advance is overwritten by the jump's target, which is the old pc. -/
theorem selfJumpIsAFixedPoint : Obligations.SelfJumpIsAFixedPoint := by
  rintro s ⟨hf, nnn, hpc, hw⟩
  have hrun : ∀ execute, runCycle execute s = execute (.jp nnn) s := fun execute =>
    runCycle_of_decode execute hf hw (decode_encode _)
  have hjump : exec (.jp nnn) s = .next s := exec_jp_self hpc
  exact ⟨(hrun exec).trans hjump, fun p => cycle_of_next ((hrun (execUnder p)).trans hjump)⟩

end Sys2Proof.Machine
end
